-- ==== Sys2Proof/Config.lean ====
section
/-! DEFINITION. The parameters of 00_scope.md R9: the types of the four values a host fixes when it constructs a machine.
Their default values stand in Machine/Parameters.lean. The register width, the register count and the word layout are
no parameters (R8, R9). The spec leaves no value open after an instruction that goes on, so there is no free value here. -/

namespace Sys2Proof

/-- `REG_RESET` (R9, R33): what a read of a register gives before the first write to it. -/
inductive RegReset where
  /-- The read raises `UninitializedRegister`. -/
  | unwritten
  /-- The read gives 0. -/
  | zero
  deriving DecidableEq, Repr

/-- `FLAG_RESET` (R9, R38): what a branch finds in the flag before the first comparison. -/
inductive FlagReset where
  /-- The branch raises `UninitializedFlag`. -/
  | unwritten
  /-- The flag starts false. -/
  | isFalse
  /-- The flag starts true. -/
  | isTrue
  deriving DecidableEq, Repr

/-- `CMP_TYPE1` (R9, R223): what the operand of a comparison with type 1 is. -/
inductive CmpType1 where
  /-- The signed operand, as for every other type. -/
  | literal
  /-- The register the operand byte names. -/
  | register
  deriving DecidableEq, Repr

/-- The parameters of one machine (R9); no instruction reads or writes one as a register (R40, R43). -/
structure Params where
  /-- `REG_RESET`. -/
  regReset : RegReset
  /-- `FLAG_RESET`. -/
  flagReset : FlagReset
  /-- `CMP_TYPE1`. -/
  cmpType1 : CmpType1
  /-- `TICK_LIMIT`: a bound on the completed instructions, or none (R40, R147). -/
  tickLimit : Option Nat
  deriving DecidableEq, Repr

end Sys2Proof
end

