-- ==== Sys2Proof/Machine/Parameters.lean ====
section
/-! DEFINITION. The default values of the parameters of 00_scope.md R9. -/

namespace Sys2Proof.Machine

/-- R9, "default for this hardware": registers and flag unwritten, type-1 comparands literal, no tick limit. -/
def defaultParams : Params where
  regReset := .unwritten
  flagReset := .unwritten
  cmpType1 := .literal
  tickLimit := none

end Sys2Proof.Machine
end

