-- ==== Sys2Proof/Word.lean ====
section
/-! DEFINITION. The word types of the YAHVM core (00_scope.md R8, R10): a 32-bit instruction word, an 8-bit byte
(an operand byte, an artifact byte, a register's stored bits), the 4-bit register field and the 2-bit type field. -/

namespace Sys2Proof

/-- An instruction word: 32 bits, bit 0 the least significant (R8, R10). -/
abbrev Word := BitVec 32

/-- Eight bits: an operand byte, a byte of the artifact, or the stored bits of a signed 8-bit register (R8, R30). -/
abbrev Byte := BitVec 8

/-- The register field, 4 bits: every value names a register, 0 to 15 (R80, R92). -/
abbrev RegIdx := BitVec 4

/-- The type field, 2 bits; what a value means depends on the opcode (R80, R91). -/
abbrev TypeTag := BitVec 2

/-- The range of a register, an output entry and an arithmetic result: -128..127 (R8, R30, R184). -/
abbrev InByteRange (v : Int) : Prop := -128 ≤ v ∧ v ≤ 127

end Sys2Proof
end

