-- ==== Sys2Proof/Machine/State.lean ====
section
/-! DEFINITION. The state of the core as plain data: every piece of state of 10_state.md (R30 to R46), the program image
of 20_memory.md (R60, R61) and the parameters of 00_scope.md R9, with the reset state and the reasons a step can stop. -/

namespace Sys2Proof.Machine

/-- The fault causes (60_exceptions.md R240). -/
inductive Cause where
  /-- Code 1: the artifact's length is not a multiple of 4 (R241). -/
  | malformedArtifact
  /-- Code 2: a bit of 31..18 is set (30_encoding.md R95). -/
  | malformedWord
  /-- Code 3: the opcode is 11..15 (30_encoding.md R94). -/
  | illegalOpcode
  /-- Code 4: a register-indirect index of 16 or more (40_execution_cycle.md R144). -/
  | registerOutOfRange
  /-- Code 5: a register read before the first write to it (10_state.md R33). -/
  | uninitializedRegister
  /-- Code 6: the flag read before the first comparison (10_state.md R38). -/
  | uninitializedFlag
  /-- Code 7: a zero divisor (42_arithmetic.md R183). -/
  | divideByZero
  /-- Code 8: an exact result outside -128..127 (42_arithmetic.md R184). -/
  | arithmeticOverflow
  deriving DecidableEq, Repr

/-- The machine status (10_state.md R42). `halted` and `faulted` are terminal. -/
inductive Status where
  | running
  | halted
  /-- The fault record (60_exceptions.md R242, R243); a load-time fault has neither index nor word (R241). -/
  | faulted (cause : Cause) (atPc : Option Nat) (word : Option Word)
  deriving DecidableEq, Repr

/-- The program image (20_memory.md R61, R62): `length` words, held as the artifact's bytes. Word `i` stands
big-endian at byte addresses 4i..4i+3. `cells` lists the bytes that are not zero by rising address; a byte address
below 4 * length that is not listed holds 0, and no other byte address exists. -/
structure ProgramImage where
  length : Nat
  cells : List Host.Cell
  deriving DecidableEq, Repr

/-- The state of the core. `regs` and `flag` hold the bits last written; `written` and `flagWritten` say whether an
instruction has written them since reset (R33, R38), and the read operations of Machine/Ops.lean consult both. -/
structure State where
  /-- `x[0]`..`x[15]`, signed 8-bit each (R30). -/
  regs : Vector Byte 16
  /-- The written bits of the registers (R33, R45). -/
  written : Vector Bool 16
  /-- The program counter, an instruction index, unbounded (R35). -/
  pc : Nat
  /-- The condition flag (R37). -/
  flag : Bool
  /-- The flag's written state (R38, R45). -/
  flagWritten : Bool
  /-- The tick counter, unbounded (R39). -/
  tick : Nat
  /-- The output stream, oldest entry first (R41). -/
  out : List Int
  /-- The machine status (R42). -/
  status : Status
  /-- The program image, immutable during a run (20_memory.md R61). -/
  program : ProgramImage
  /-- The parameters this machine was constructed with (00_scope.md R9). -/
  params : Params
  deriving DecidableEq, Repr

/-- The state right after reset (R46, R270), constructed with the default parameters and the empty artifact: no program
has been loaded from outside yet. The bits behind an unwritten register and an unwritten flag are the model's choice
(notes/assumptions/2.md); no instruction can read them. -/
def State.reset : State where
  regs := Vector.replicate 16 0#8
  written := Vector.replicate 16 false
  pc := 0
  flag := false
  flagWritten := false
  tick := 0
  out := []
  status := .running
  program := ⟨0, []⟩
  params := defaultParams

/-- Why `step` answers a host fault. A fault of the core itself (R240) is none of these: it is a next state whose
status is `faulted` (R242). -/
inductive Fault where
  /-- Raised by `step` in status `halted`: "in `Halted` or `Faulted` the machine has no step" (R141). Safe. -/
  | stepWhileHalted
  /-- Raised by `step` in status `faulted` (R141, R246). Safe. -/
  | stepWhileFaulted
  deriving DecidableEq, Repr

/-- Why an instruction has no meaning here. -/
inductive Refusal where
  /-- Answered by an arm of `exec` whose instruction has no meaning yet. Safe. No arm answers it. -/
  | notModelled (mnemonic : String)
  deriving DecidableEq, Repr

end Sys2Proof.Machine
end

