-- ==== Sys2Proof/Machine/Flags.lean ====
section
/-! DEFINITION. The arithmetic unit with its two fault outputs (42_arithmetic.md R184 to R186), the only "flag outputs"
arithmetic has, and the comparator (44_compare.md R223), the only writer of the condition flag. -/

namespace Sys2Proof.Machine

/-- The function input of the arithmetic unit (R186). -/
inductive AluFn where
  | add
  | sub
  | mul
  | div
  deriving DecidableEq, Repr

/-- The output of the arithmetic unit (R186): a result, or one of the fault outputs `div_zero` and `overflow`. With a
fault output set the result is not written, so none is given. -/
inductive AluOut where
  | result (r : Int)
  | divZero
  | overflow
  deriving DecidableEq, Repr

/-- `quot` (R185): the integer quotient rounded toward zero. -/
def quot (a b : Int) : Int := a.sign * b.sign * ((a.natAbs / b.natAbs : Nat) : Int)

/-- The exact result before the range check (R180 to R183): target operated with source, in that order. -/
def aluExact (fn : AluFn) (a b : Int) : Int :=
  match fn with
  | .add => a + b
  | .sub => a - b
  | .mul => a * b
  | .div => quot a b

/-- The arithmetic unit (R184, R186): `div_zero` takes precedence over `overflow`. -/
def alu (fn : AluFn) (a b : Int) : AluOut :=
  if fn = .div ∧ b = 0 then .divZero
  else if InByteRange (aluExact fn a b) then .result (aluExact fn a b)
  else .overflow

/-- The fault each output raises (R183, R184, R186). -/
def AluOut.toExcept : AluOut → Except Cause Int
  | .result r => .ok r
  | .divZero => .error .divideByZero
  | .overflow => .error .arithmeticOverflow

/-- The operation input of the comparator (R223). -/
inductive CmpOp where
  | eql
  | cbp
  | clp
  deriving DecidableEq, Repr

/-- `flag_next` (R220 to R223): a signed comparison of the target with the comparand. -/
def comparator (op : CmpOp) (a b : Int) : Bool :=
  match op with
  | .eql => decide (a = b)
  | .cbp => decide (a > b)
  | .clp => decide (a < b)

end Sys2Proof.Machine
end

