-- ==== Sys2Proof/Syntax.lean ====
section
/-! DEFINITION. The instructions of 30_encoding.md R90, one constructor per row of spec/opcode_table.json, and the
four-field tuple of R80. An instruction keeps all three of its fields, the ignored ones too (R86, R96): the register,
type and operand fields never select an instruction (R90). -/

namespace Sys2Proof

/-- The fields of one instruction word (R80): opcode 17..14, register 13..10, type 9..8, operand 7..0. -/
structure Fields where
  op : BitVec 4
  reg : RegIdx
  typ : TypeTag
  opnd : Byte
  deriving DecidableEq, Repr

/-- The eleven instructions (R2, R90); the arguments are the register, type and operand fields. -/
inductive Instr where
  /-- `PRT`, opcode 0 (R160). -/
  | prt (reg : RegIdx) (typ : TypeTag) (opnd : Byte)
  /-- `SET`, opcode 1 (R161). -/
  | set (reg : RegIdx) (typ : TypeTag) (opnd : Byte)
  /-- `ADD`, opcode 2 (R180). -/
  | add (reg : RegIdx) (typ : TypeTag) (opnd : Byte)
  /-- `SUB`, opcode 3 (R181). -/
  | sub (reg : RegIdx) (typ : TypeTag) (opnd : Byte)
  /-- `MUL`, opcode 4 (R182). -/
  | mul (reg : RegIdx) (typ : TypeTag) (opnd : Byte)
  /-- `DIV`, opcode 5 (R183). -/
  | div (reg : RegIdx) (typ : TypeTag) (opnd : Byte)
  /-- `JMP`, opcode 6 (R200). -/
  | jmp (reg : RegIdx) (typ : TypeTag) (opnd : Byte)
  /-- `JNP`, opcode 7 (R202). -/
  | jnp (reg : RegIdx) (typ : TypeTag) (opnd : Byte)
  /-- `EQL`, opcode 8 (R220). -/
  | eql (reg : RegIdx) (typ : TypeTag) (opnd : Byte)
  /-- `CBP`, opcode 9 (R221). -/
  | cbp (reg : RegIdx) (typ : TypeTag) (opnd : Byte)
  /-- `CLP`, opcode 10 (R222). -/
  | clp (reg : RegIdx) (typ : TypeTag) (opnd : Byte)
  deriving DecidableEq, Repr

end Sys2Proof
end

