-- ==== Sys2Proof/WellFormed.lean ====
section
/-! DEFINITION. The checks a tuple of fields and a word must pass to be an instruction. A term of `Instr` needs no check
of its own: its fields have exactly the widths of 30_encoding.md R80, and any 4-bit register, 2-bit type and 8-bit
operand byte is legal (R83, R86). What can be ill-formed is a tuple whose opcode names no instruction (R94) and a word
with a bit above position 17 (R95). -/

namespace Sys2Proof

/-- The tuple names one of the eleven instructions: its opcode is at most 10 (R90, R94). -/
def Fields.wellFormed (f : Fields) : Bool := decide (f.op.toNat ≤ 10)

/-- The word has bits 31..18 clear (R80, R95). -/
def wordHighBitsClear (w : Word) : Bool := decide (w.toNat < 2 ^ 18)

/-- The word's opcode field, bits 17..14, is at most 10 (R90, R94). -/
def wordOpcodeUsed (w : Word) : Bool := decide (w.toNat / 2 ^ 14 % 16 ≤ 10)

/-- The word may be dispatched: it passes both checks of the step (40_execution_cycle.md R143). -/
def wordWellFormed (w : Word) : Bool := wordHighBitsClear w && wordOpcodeUsed w

end Sys2Proof
end

