-- ==== Sys2Proof/Decode.lean ====
section
/-! DEFINITION. The codec of 30_encoding.md: the pure field encoder and field decoder (R82 to R85), the sign-magnitude
operand (R87, R88), the decoder of a word into an instruction with the two validity checks of 40_execution_cycle.md
R143, and the encoder of an instruction, written from the opcode map R90. -/

namespace Sys2Proof

/-! ## Sign-magnitude operands -/

/-- `smag` (R87): bit 7 is the sign, bits 6..0 the magnitude; 0x80 is 0. -/
def smag (b : Byte) : Int :=
  if b.getLsbD 7 then -((b &&& 0x7F#8).toNat : Int) else ((b &&& 0x7F#8).toNat : Int)

/-- `smenc` (R88): the operand byte of a literal; none is the assembler's `OperandOutOfRange`. -/
def smenc (v : Int) : Option Byte :=
  if 127 < v.natAbs then none
  else if v < 0 then some (0x80#8 ||| BitVec.ofNat 8 v.natAbs)
  else some (BitVec.ofNat 8 v.natAbs)

/-! ## The field encoder and the field decoder -/

/-- `encode` on fields (R82, R83): shift each field to its place and OR; total over the field widths. -/
def encodeFields (f : Fields) : Word :=
  (f.op.setWidth 32 <<< 14) ||| (f.reg.setWidth 32 <<< 10) ||| (f.typ.setWidth 32 <<< 8) ||| f.opnd.setWidth 32

/-- `decode` into fields (R84): mask and shift right; bits 31..18 are ignored. -/
def decodeFields (w : Word) : Fields where
  op := ((w &&& 0x3C000#32) >>> 14).setWidth 4
  reg := ((w &&& 0x03C00#32) >>> 10).setWidth 4
  typ := ((w &&& 0x00300#32) >>> 8).setWidth 2
  opnd := (w &&& 0x000FF#32).setWidth 8

/-- `hi_ok` (R85): bits 31..18 are zero. -/
def hiOk (w : Word) : Bool := w >>> 18 == 0#32

/-- `op_ok` (R85): the opcode is at most 10. -/
def opOk (op : BitVec 4) : Bool := op ≤ 10#4

/-- The outputs of the decoder as a hardware block (R85). -/
structure DecoderOut where
  fields : Fields
  /-- The signed interpretation of the operand. -/
  sopnd : Int
  /-- The unsigned interpretation of the operand, the raw byte 0..255. -/
  uopnd : Nat
  hiOk : Bool
  opOk : Bool
  deriving DecidableEq, Repr

/-- The decoder block (R85, R151). -/
def decoder (w : Word) : DecoderOut where
  fields := decodeFields w
  sopnd := smag (decodeFields w).opnd
  uopnd := (decodeFields w).opnd.toNat
  hiOk := Sys2Proof.hiOk w
  opOk := Sys2Proof.opOk (decodeFields w).op

/-! ## Words and instructions -/

/-- Why a word is no instruction (R143). -/
inductive DecodeError where
  /-- Some bit of 31..18 is set (R95). -/
  | malformedWord
  /-- The opcode is 11..15 (R94). -/
  | illegalOpcode
  deriving DecidableEq, Repr

/-- Why a byte stream does not begin with an instruction. -/
inductive BytesError where
  /-- The first word is no instruction. -/
  | word (e : DecodeError)
  /-- Fewer than four bytes are left; every instruction is one 32-bit word (R81). -/
  | truncated
  deriving DecidableEq, Repr

/-- The opcode map, read from an opcode to its instruction (R90). -/
def instrOfFields (f : Fields) : Option Instr :=
  match f.op.toNat with
  | 0 => some (.prt f.reg f.typ f.opnd)
  | 1 => some (.set f.reg f.typ f.opnd)
  | 2 => some (.add f.reg f.typ f.opnd)
  | 3 => some (.sub f.reg f.typ f.opnd)
  | 4 => some (.mul f.reg f.typ f.opnd)
  | 5 => some (.div f.reg f.typ f.opnd)
  | 6 => some (.jmp f.reg f.typ f.opnd)
  | 7 => some (.jnp f.reg f.typ f.opnd)
  | 8 => some (.eql f.reg f.typ f.opnd)
  | 9 => some (.cbp f.reg f.typ f.opnd)
  | 10 => some (.clp f.reg f.typ f.opnd)
  | _ => none

/-- The decoder with its checks in the order of R143: the high bits first, then the opcode. -/
def decodeWord (w : Word) : Except DecodeError Instr :=
  if hiOk w then
    match instrOfFields (decodeFields w) with
    | some i => .ok i
    | none => .error .illegalOpcode
  else .error .malformedWord

/-- Four bytes as a word, the first byte in bits 31..24 (20_memory.md R62, R63). -/
def wordOfBytes (b0 b1 b2 b3 : Byte) : Word := b0 ++ b1 ++ b2 ++ b3

/-- A word's four bytes, most-significant byte first (R63, 30_encoding.md R110). -/
def wordBytes (w : Word) : List Byte :=
  [w.extractLsb' 24 8, w.extractLsb' 16 8, w.extractLsb' 8 8, w.extractLsb' 0 8]

/-- The decoder on a byte stream: one instruction and the bytes after it (R62, R81). -/
def decodeBytes : List Byte → Except BytesError (Instr × List Byte)
  | b0 :: b1 :: b2 :: b3 :: rest =>
    match decodeWord (wordOfBytes b0 b1 b2 b3) with
    | .ok i => .ok (i, rest)
    | .error e => .error (.word e)
  | _ => .error .truncated

/-- The instruction the decoder reads from a word of the opcode table, its bits above `nbits` zero. -/
def decodeTableWord (nbits w : Nat) : Option Instr :=
  match decodeBytes (wordBytes (BitVec.ofNat 32 (w % 2 ^ nbits))) with
  | .ok (i, _) => some i
  | .error _ => none

/-! ## The encoder -/

/-- The opcode map, read from an instruction to its fields (R90). -/
def Instr.toFields : Instr → Fields
  | .prt r t n => ⟨0, r, t, n⟩
  | .set r t n => ⟨1, r, t, n⟩
  | .add r t n => ⟨2, r, t, n⟩
  | .sub r t n => ⟨3, r, t, n⟩
  | .mul r t n => ⟨4, r, t, n⟩
  | .div r t n => ⟨5, r, t, n⟩
  | .jmp r t n => ⟨6, r, t, n⟩
  | .jnp r t n => ⟨7, r, t, n⟩
  | .eql r t n => ⟨8, r, t, n⟩
  | .cbp r t n => ⟨9, r, t, n⟩
  | .clp r t n => ⟨10, r, t, n⟩

/-- The word of an instruction (R82, R90). -/
def encode (i : Instr) : Word := encodeFields i.toFields

end Sys2Proof
end

