-- ==== Sys2Proof/Machine/Ops.lean ====
section
/-! DEFINITION. The named operations over the program image, the registers, the flag and the output stream, fault
entry, completion, and the construction of a machine. -/

namespace Sys2Proof.Machine

/-! ## Bytes of the program image (20_memory.md R61 to R64) -/

/-- The byte at an address of a cell list; an unlisted address reads as 0. -/
def cellsRead : List Host.Cell → Nat → Byte
  | [], _ => 0#8
  | (k, v) :: rest, a => if k = a then v else cellsRead rest a

/-- Write one byte, keeping the list strictly rising and free of zero bytes. -/
def cellsWrite : List Host.Cell → Nat → Byte → List Host.Cell
  | [], a, b => if b = 0#8 then [] else [(a, b)]
  | (k, v) :: rest, a, b =>
    if a < k then (if b = 0#8 then (k, v) :: rest else (a, b) :: (k, v) :: rest)
    else if a = k then (if b = 0#8 then rest else (a, b) :: rest)
    else (k, v) :: cellsWrite rest a b

/-- The cells of a byte list that starts at address `a`. -/
def cellsOfBytes : Nat → List Byte → List Host.Cell
  | _, [] => []
  | a, b :: bs => if b = 0#8 then cellsOfBytes (a + 1) bs else (a, b) :: cellsOfBytes (a + 1) bs

/-- The canonical form of a cell list: addresses strictly rising from `lo` on and below `hi`, no zero byte. -/
def cellsCanonical (hi : Nat) : Nat → List Host.Cell → Bool
  | _, [] => true
  | lo, (k, v) :: rest => decide (lo ≤ k) && decide (k < hi) && decide (v ≠ 0#8) && cellsCanonical hi (k + 1) rest

/-- The canonical form of a program image: equal images are equal data. -/
def ProgramImage.wf (p : ProgramImage) : Bool := cellsCanonical (4 * p.length) 0 p.cells

/-- One byte of the image; none where the image has no such byte (R67). -/
def ProgramImage.readByte (p : ProgramImage) (a : Nat) : Option Byte :=
  if a < 4 * p.length then some (cellsRead p.cells a) else none

/-- `Fetch(i)` (R64): word `i` of the image, big-endian (R62), or none when `i ≥ n`. -/
def ProgramImage.fetch (p : ProgramImage) (i : Nat) : Option Word :=
  if i < p.length then
    some (wordOfBytes (cellsRead p.cells (4 * i)) (cellsRead p.cells (4 * i + 1))
      (cellsRead p.cells (4 * i + 2)) (cellsRead p.cells (4 * i + 3)))
  else none

/-- The image of an artifact whose length is a multiple of 4 (R62). -/
def ProgramImage.ofBytes (bytes : List Byte) : ProgramImage where
  length := bytes.length / 4
  cells := cellsOfBytes 0 bytes

/-- Place a word at index `i`, lengthening the image with zero bytes where it is shorter. A load from outside; no
instruction does this (R61). -/
def ProgramImage.setWord (p : ProgramImage) (i : Nat) (w : Word) : ProgramImage where
  length := max p.length (i + 1)
  cells := cellsWrite (cellsWrite (cellsWrite (cellsWrite p.cells (4 * i) (w.extractLsb' 24 8))
    (4 * i + 1) (w.extractLsb' 16 8)) (4 * i + 2) (w.extractLsb' 8 8)) (4 * i + 3) (w.extractLsb' 0 8)

/-! ## Registers (10_state.md R31 to R33, R47) -/

/-- The bits stored behind register `r`. -/
def State.reg (s : State) (r : RegIdx) : Byte := s.regs.get r.toFin

/-- The written bit of register `r` (R33). -/
def State.regWritten (s : State) (r : RegIdx) : Bool := s.written.get r.toFin

/-- A read port (R47): the data, a signed integer, and the unwritten mark. Before the first write the data is 0 and the
mark is raised under `REG_RESET = Unwritten` only (R33). -/
def State.readPort (s : State) (r : RegIdx) : Int × Bool :=
  if s.regWritten r then ((s.reg r).toInt, false)
  else (0, decide (s.params.regReset = .unwritten))

/-- `x[r]` (R12, R31, R33): the port's data, or `UninitializedRegister`. -/
def State.readReg (s : State) (r : RegIdx) : Except Cause Int :=
  if (s.readPort r).2 then .error .uninitializedRegister else .ok (s.readPort r).1

/-- `x[r] <- v` (R32, R33): the value is stored and the written bit set. The callers pass -128..127 only (R184). -/
def State.writeReg (s : State) (r : RegIdx) (v : Int) : State :=
  { s with
    regs := s.regs.set r.toNat (BitVec.ofInt 8 v) r.isLt
    written := s.written.set r.toNat true r.isLt }

/-! ## The flag (R37, R38) and the output stream (R41) -/

/-- The flag as a branch reads it (R38). -/
def State.readFlag (s : State) : Except Cause Bool :=
  if s.flagWritten then .ok s.flag
  else
    match s.params.flagReset with
    | .unwritten => .error .uninitializedFlag
    | .isFalse => .ok false
    | .isTrue => .ok true

/-- `flag <- b` (R37). -/
def State.setFlag (s : State) (b : Bool) : State := { s with flag := b, flagWritten := true }

/-- `Out.append(v)` (R41). -/
def State.appendOut (s : State) (v : Int) : State := { s with out := s.out ++ [v] }

/-- The output port (41_print_and_set.md R162): what `PRT` appends, given the signed operand and register port A. -/
def outputPort (typ : TypeTag) (sopnd qa : Int) : Option Int :=
  if typ = 0#2 then some sopnd else if typ = 2#2 then some qa else none

/-! ## The end of an instruction -/

/-- `pc <- next` (R35, 40_execution_cycle.md R146). -/
def State.setPc (s : State) (next : Nat) : State := { s with pc := next }

/-- `next <- pc + 1`: every rule outside 43_branch.md (40_execution_cycle.md R145). -/
def State.advance (s : State) : State := s.setPc (s.pc + 1)

/-- The tick count is over the limit (R147): "exceeds" is strict. -/
def tickLimitExceeded (limit : Option Nat) (tick : Nat) : Bool :=
  match limit with
  | none => false
  | some l => decide (l < tick)

/-- Completion (R146, R147): one tick, then the tick-limit check. -/
def State.complete (s : State) : State :=
  { s with
    tick := s.tick + 1
    status := if tickLimitExceeded s.params.tickLimit (s.tick + 1) then .halted else s.status }

/-- `raise Fault(cause)` (60_exceptions.md R242): the status records the cause, the instruction's index and its word,
and nothing else changes. -/
def State.raise (s : State) (cause : Cause) (w : Word) : State :=
  { s with status := .faulted cause (some s.pc) (some w) }

/-- The end of a program (R142): the status becomes halted and nothing else changes. -/
def State.halt (s : State) : State := { s with status := .halted }

/-- End the instruction whose word is `w` (R145, R146): `r` is the state with its writes and its next `pc`, or the
cause it raises. A fault is taken on `s`, the state before the instruction, so the instruction commits nothing. -/
def State.retire (s : State) (w : Word) (r : Except Cause State) : Host.Outcome State Fault Refusal :=
  match r with
  | .ok t => .next t.complete
  | .error c => .next (s.raise c w)

/-- The cause a word that is no instruction raises (R143; 30_encoding.md R94, R95). -/
def causeOfDecodeError : DecodeError → Cause
  | .malformedWord => .malformedWord
  | .illegalOpcode => .illegalOpcode

/-- The cause codes (R240). -/
def Cause.code : Cause → Nat
  | .malformedArtifact => 1
  | .malformedWord => 2
  | .illegalOpcode => 3
  | .registerOutOfRange => 4
  | .uninitializedRegister => 5
  | .uninitializedFlag => 6
  | .divideByZero => 7
  | .arithmeticOverflow => 8

/-! ## Fetch and construction -/

/-- The fetch of a step (40_execution_cycle.md R142). -/
def State.fetch (s : State) : Option Word := s.program.fetch s.pc

/-- Construction of a machine with a program (70_reset_and_hazards.md R270; 20_memory.md R62; 60_exceptions.md R241).
DESIGN CHOICE: the written bits and the flag's written state start clear under every value of `REG_RESET` and
`FLAG_RESET`; R33 and R46 say so of the registers under `Unwritten` only, R38 of the flag (notes/assumptions/30.md). -/
def State.construct (p : Params) (artifact : List Byte) : State :=
  if artifact.length % 4 = 0 then
    { State.reset with program := ProgramImage.ofBytes artifact, params := p }
  else
    { State.reset with status := .faulted .malformedArtifact none none, params := p }

end Sys2Proof.Machine
end

