-- ==== Sys2Proof/Machine/Operands.lean ====
section
/-! DEFINITION. The operand forms: the register-indirect range check and the source operand of 40_execution_cycle.md
R144, and the comparand of 44_compare.md R223. -/

namespace Sys2Proof.Machine

/-- `check_src` (R144): a type-1 operand byte, read unsigned, must be below 16. -/
def checkSrc (typ : TypeTag) (opnd : Byte) : Except Cause Unit :=
  if typ = 1#2 ∧ 16 ≤ opnd.toNat then .error .registerOutOfRange else .ok ()

/-- The register a type-1 operand byte names: word bits 3..0 after the range check (R47, R144). -/
def sourceIdx (opnd : Byte) : RegIdx := opnd.setWidth 4

/-- `src` (R144): type 1 reads the named register, types 0, 2 and 3 are the signed immediate. -/
def State.src (s : State) (typ : TypeTag) (opnd : Byte) : Except Cause Int :=
  if typ = 1#2 then s.readReg (sourceIdx opnd) else .ok (smag opnd)

/-- `cmp_b` (R223): the comparand. -/
def State.cmpB (s : State) (typ : TypeTag) (opnd : Byte) : Except Cause Int :=
  if s.params.cmpType1 = .register ∧ typ = 1#2 then do
    checkSrc typ opnd
    s.readReg (sourceIdx opnd)
  else .ok (smag opnd)

end Sys2Proof.Machine
end

