-- ==== Sys2Proof/Machine/Arithmetic.lean ====
section
/-! DEFINITION. The meanings of ADD, SUB, MUL and DIV (42_arithmetic.md R180 to R183). -/

namespace Sys2Proof.Machine

/-- The rule the four share: range check, target, source, arithmetic unit, write, in that order (R180 to R183, R244). -/
def State.arith (s : State) (fn : AluFn) (reg : RegIdx) (typ : TypeTag) (opnd : Byte) : Except Cause State := do
  checkSrc typ opnd
  let a ← s.readReg reg
  let b ← s.src typ opnd
  let r ← (alu fn a b).toExcept
  return (s.writeReg reg r).advance

/-- ADD (R180). -/
def execAdd (reg : RegIdx) (typ : TypeTag) (opnd : Byte) (s : State) : Host.Outcome State Fault Refusal :=
  s.retire (encode (.add reg typ opnd)) (s.arith .add reg typ opnd)

/-- SUB (R181): target minus source. -/
def execSub (reg : RegIdx) (typ : TypeTag) (opnd : Byte) (s : State) : Host.Outcome State Fault Refusal :=
  s.retire (encode (.sub reg typ opnd)) (s.arith .sub reg typ opnd)

/-- MUL (R182). -/
def execMul (reg : RegIdx) (typ : TypeTag) (opnd : Byte) (s : State) : Host.Outcome State Fault Refusal :=
  s.retire (encode (.mul reg typ opnd)) (s.arith .mul reg typ opnd)

/-- DIV (R183): the target is the dividend. -/
def execDiv (reg : RegIdx) (typ : TypeTag) (opnd : Byte) (s : State) : Host.Outcome State Fault Refusal :=
  s.retire (encode (.div reg typ opnd)) (s.arith .div reg typ opnd)

end Sys2Proof.Machine
end

