-- ==== Sys2Proof/Machine/Branch.lean ====
section
/-! DEFINITION. The branch unit and the meanings of JMP and JNP (43_branch.md R200 to R203). -/

namespace Sys2Proof.Machine

/-- `landing` (R201): `max(0, u - 2) + 1`, u the operand byte read unsigned. -/
def landing (u : Nat) : Nat := (max 0 ((u : Int) - 2)).toNat + 1

/-- The branch unit (R203): `takenWhen` is true for JMP and false for JNP. -/
def branchNext (takenWhen flag : Bool) (uopnd pc : Nat) : Nat :=
  if flag = takenWhen then landing uopnd else pc + 1

/-- The rule the two share: read the flag, set the next `pc` (R200, R202). -/
def State.branch (s : State) (takenWhen : Bool) (opnd : Byte) : Except Cause State := do
  let f ← s.readFlag
  return s.setPc (branchNext takenWhen f opnd.toNat s.pc)

/-- JMP (R200): taken when the flag is true; the register and type fields are ignored. -/
def execJmp (reg : RegIdx) (typ : TypeTag) (opnd : Byte) (s : State) : Host.Outcome State Fault Refusal :=
  s.retire (encode (.jmp reg typ opnd)) (s.branch true opnd)

/-- JNP (R202): taken when the flag is false. -/
def execJnp (reg : RegIdx) (typ : TypeTag) (opnd : Byte) (s : State) : Host.Outcome State Fault Refusal :=
  s.retire (encode (.jnp reg typ opnd)) (s.branch false opnd)

end Sys2Proof.Machine
end

