-- ==== Sys2Proof/Machine/Compare.lean ====
section
/-! DEFINITION. The meanings of EQL, CBP and CLP (44_compare.md R220 to R222). -/

namespace Sys2Proof.Machine

/-- The rule the three share: comparand, target, comparator, flag, in that order (R220 to R223). -/
def State.compare (s : State) (op : CmpOp) (reg : RegIdx) (typ : TypeTag) (opnd : Byte) : Except Cause State := do
  let b ← s.cmpB typ opnd
  let a ← s.readReg reg
  return (s.setFlag (comparator op a b)).advance

/-- EQL (R220). -/
def execEql (reg : RegIdx) (typ : TypeTag) (opnd : Byte) (s : State) : Host.Outcome State Fault Refusal :=
  s.retire (encode (.eql reg typ opnd)) (s.compare .eql reg typ opnd)

/-- CBP (R221). -/
def execCbp (reg : RegIdx) (typ : TypeTag) (opnd : Byte) (s : State) : Host.Outcome State Fault Refusal :=
  s.retire (encode (.cbp reg typ opnd)) (s.compare .cbp reg typ opnd)

/-- CLP (R222). -/
def execClp (reg : RegIdx) (typ : TypeTag) (opnd : Byte) (s : State) : Host.Outcome State Fault Refusal :=
  s.retire (encode (.clp reg typ opnd)) (s.compare .clp reg typ opnd)

end Sys2Proof.Machine
end

