-- ==== Sys2Proof/Machine/PrintSet.lean ====
section
/-! DEFINITION. The meanings of PRT and SET (41_print_and_set.md R160, R161). -/

namespace Sys2Proof.Machine

/-- What register port A gives `PRT`: only type 2 reads the register (R160), so only type 2 can find it unwritten. -/
def State.printRegister (s : State) (reg : RegIdx) (typ : TypeTag) : Except Cause Int :=
  if typ = 2#2 then s.readReg reg else .ok (s.readPort reg).1

/-- Append the output port's value, if it gives one (R162). -/
def State.emit (s : State) (v : Option Int) : State :=
  match v with
  | some x => s.appendOut x
  | none => s

/-- PRT (R160): type 0 outputs the signed operand, type 2 the register, types 1 and 3 nothing. -/
def execPrt (reg : RegIdx) (typ : TypeTag) (opnd : Byte) (s : State) : Host.Outcome State Fault Refusal :=
  s.retire (encode (.prt reg typ opnd)) do
    let qa ← s.printRegister reg typ
    return (s.emit (outputPort typ (smag opnd) qa)).advance

/-- SET (R161): the target takes the source operand; the target is not read. -/
def execSet (reg : RegIdx) (typ : TypeTag) (opnd : Byte) (s : State) : Host.Outcome State Fault Refusal :=
  s.retire (encode (.set reg typ opnd)) do
    checkSrc typ opnd
    let v ← s.src typ opnd
    return (s.writeReg reg v).advance

end Sys2Proof.Machine
end

