-- ==== Sys2Proof/Machine/Dispatch.lean ====
section
/-! DEFINITION. Dispatch (40_execution_cycle.md R145): one arm per instruction. -/

namespace Sys2Proof.Machine

def exec (i : Instr) (s : State) : Host.Outcome State Fault Refusal :=
  match i with
  | .prt reg typ opnd => Sys2Proof.Machine.execPrt reg typ opnd s
  | .set reg typ opnd => Sys2Proof.Machine.execSet reg typ opnd s
  | .add reg typ opnd => Sys2Proof.Machine.execAdd reg typ opnd s
  | .sub reg typ opnd => Sys2Proof.Machine.execSub reg typ opnd s
  | .mul reg typ opnd => Sys2Proof.Machine.execMul reg typ opnd s
  | .div reg typ opnd => Sys2Proof.Machine.execDiv reg typ opnd s
  | .jmp reg typ opnd => Sys2Proof.Machine.execJmp reg typ opnd s
  | .jnp reg typ opnd => Sys2Proof.Machine.execJnp reg typ opnd s
  | .eql reg typ opnd => Sys2Proof.Machine.execEql reg typ opnd s
  | .cbp reg typ opnd => Sys2Proof.Machine.execCbp reg typ opnd s
  | .clp reg typ opnd => Sys2Proof.Machine.execClp reg typ opnd s

end Sys2Proof.Machine
end

