-- ==== Sys2Proof/Machine/Step.lean ====
section
/-! DEFINITION. One step (40_execution_cycle.md R141 to R143, R148), and the load of one word where the next step
fetches. -/

namespace Sys2Proof.Machine

/-- One step (R148): defined in status running only (R141); fetch, decode with its checks, dispatch. -/
def step (s : State) : Host.Outcome State Fault Refusal :=
  match s.status with
  | .halted => .fault .stepWhileHalted
  | .faulted _ _ _ => .fault .stepWhileFaulted
  | .running =>
    match s.fetch with
    | none => .next s.halt
    | some w =>
      match decodeWord w with
      | .error e => .next (s.raise (causeOfDecodeError e) w)
      | .ok i => exec i s

/-- `s` with one word (its bits above `nbits` zero) loaded at the index `step` fetches next, in status running. -/
def State.withFetchWord (s : State) (nbits w : Nat) : State :=
  { s with
    status := .running
    program := s.program.setWord s.pc (BitVec.ofNat 32 (w % 2 ^ nbits)) }

end Sys2Proof.Machine
end

