-- ==== Sys2Proof/Machine/Assembler.lean ====
section
/-! DEFINITION. The assembler of 30_encoding.md section 7 (R100 to R113): toolchain, not hardware (00_scope.md R4), and
no step of the machine uses it. Its three passes run one after the other over the whole text. -/

namespace Sys2Proof.Asm

/-- The assembly-time errors (R111). -/
inductive AsmError where
  | unknownMnemonic
  | unknownRegister
  | invalidType
  | invalidOperand
  | operandOutOfRange
  | unknownLabel
  | wrongTokenCount
  | invalidLabel
  | duplicateLabel
  deriving DecidableEq, Repr

/-- A trimmed source line (R100), a token, a label name. -/
abbrev Chars := List Char

/-- An error with its offending line (R110). -/
structure AsmFailure where
  error : AsmError
  line : Chars
  deriving DecidableEq, Repr

/-- The label table (R101): a name and the retained index of the next instruction. -/
abbrev LabelTable := List (Chars × Nat)

/-! ## Classification pass (R100, R101) -/

/-- A word character: an ASCII letter, a digit or `_` (R101). -/
def isWordChar (c : Char) : Bool := c.isAlphanum || c == '_'

/-- What a line is (R100, R101). -/
inductive LineKind where
  | dropped
  | label (name : Chars)
  | badLabel
  | instruction
  deriving DecidableEq, Repr

/-- Classify one trimmed line (R100, R101). -/
def classify : Chars → LineKind
  | [] => .dropped
  | c :: rest =>
    if c = ';' then .dropped
    else if c = '#' then (if rest ≠ [] ∧ rest.all isWordChar then .label rest else .badLabel)
    else .instruction

/-- The pass: the label table and the retained lines; `k` counts the instructions seen so far. -/
def collect : List Chars → Nat → LabelTable → Except AsmFailure (LabelTable × List Chars)
  | [], _, t => .ok (t, [])
  | l :: ls, k, t =>
    match classify l with
    | .dropped => collect ls k t
    | .badLabel => .error ⟨.invalidLabel, l⟩
    | .label n =>
      match t.lookup n with
      | some _ => .error ⟨.duplicateLabel, l⟩
      | none => collect ls k ((n, k) :: t)
    | .instruction => do
      let r ← collect ls (k + 1) t
      return (r.1, l :: r.2)

/-! ## Label substitution pass (R102) -/

/-- The replacement of a reference whose name has been read in reverse: the decimal of the count plus one. A `#`
that no word character follows is no reference and stays. -/
def flushRef (t : LabelTable) (revName : Chars) : Except AsmError Chars :=
  if revName = [] then .ok ['#']
  else
    match t.lookup revName.reverse with
    | some k => .ok (Nat.toDigits 10 (k + 1))
    | none => .error .unknownLabel

/-- Substitute every reference of a line, each matched greedily; `pending` is the name being read, in reverse. -/
def substitute (t : LabelTable) : Chars → Option Chars → Except AsmError Chars
  | [], none => .ok []
  | [], some p => flushRef t p
  | c :: cs, none =>
    if c = '#' then substitute t cs (some []) else do
      let r ← substitute t cs none
      return c :: r
  | c :: cs, some p =>
    if isWordChar c then substitute t cs (some (c :: p)) else do
      let pre ← flushRef t p
      let r ← substitute t cs (if c = '#' then some [] else none)
      return pre ++ (if c = '#' then r else c :: r)

/-! ## Encoding pass (R103 to R109) -/

/-- Split on single spaces (R103): two adjacent spaces give an empty token. -/
def splitSpaces : Chars → List Chars
  | [] => [[]]
  | c :: cs =>
    match splitSpaces cs with
    | [] => [[c]]
    | t :: ts => if c = ' ' then [] :: t :: ts else (c :: t) :: ts

/-- The mnemonics, matched exactly in upper case (R90, R103). -/
def mnemonics : List (Chars × BitVec 4) :=
  [("PRT".toList, 0), ("SET".toList, 1), ("ADD".toList, 2), ("SUB".toList, 3), ("MUL".toList, 4), ("DIV".toList, 5),
   ("JMP".toList, 6), ("JNP".toList, 7), ("EQL".toList, 8), ("CBP".toList, 9), ("CLP".toList, 10)]

/-- The value of a decimal digit. -/
def digit? (c : Char) : Option Nat :=
  if '0' ≤ c ∧ c ≤ '9' then some (c.toNat - '0'.toNat) else none

/-- A register name (R104): `$0`..`$9`, `$a`..`$f`, case-insensitive. -/
def register? : Chars → Option RegIdx
  | ['$', c] =>
    if '0' ≤ c ∧ c ≤ '9' then some (BitVec.ofNat 4 (c.toNat - '0'.toNat))
    else if 'a' ≤ c ∧ c ≤ 'f' then some (BitVec.ofNat 4 (c.toNat - 'a'.toNat + 10))
    else if 'A' ≤ c ∧ c ≤ 'F' then some (BitVec.ofNat 4 (c.toNat - 'A'.toNat + 10))
    else none
  | _ => none

/-- A type digit `0`..`3` (R109). -/
def typeTag? : Chars → Option TypeTag
  | [c] => if '0' ≤ c ∧ c ≤ '3' then some (BitVec.ofNat 2 (c.toNat - '0'.toNat)) else none
  | _ => none

/-- The value of a run of digits, `acc` the value of the digits before it. -/
def digits? : Chars → Nat → Option Nat
  | [], acc => some acc
  | c :: cs, acc =>
    match digit? c with
    | some d => digits? cs (10 * acc + d)
    | none => none

/-- A literal (R105): an optional `-`, then one or more decimal digits. -/
def literal? : Chars → Option Int
  | [] => none
  | '-' :: [] => none
  | '-' :: c :: cs => (digits? (c :: cs) 0).map fun n => -(n : Int)
  | c :: cs => (digits? (c :: cs) 0).map fun n => (n : Int)

/-- The operand byte of a literal token (R105): `InvalidOperand`, or `OperandOutOfRange`, or the byte. -/
def operandByte (tok : Chars) : Except AsmError Byte :=
  match literal? tok with
  | none => .error .invalidOperand
  | some v =>
    match smenc v with
    | none => .error .operandOutOfRange
    | some b => .ok b

/-- A token in a register position (R104). -/
def registerToken (tok : Chars) : Except AsmError RegIdx :=
  match register? tok with
  | some r => .ok r
  | none => .error .unknownRegister

/-- A token in a type position (R109). -/
def typeToken (tok : Chars) : Except AsmError TypeTag :=
  match typeTag? tok with
  | some t => .ok t
  | none => .error .invalidType

/-- A token is taken as a register reference in a short form (R104). -/
def isRegisterRef (tok : Chars) : Bool := tok.head? == some '$'

/-- `JMP` and `JNP` (R106). -/
def isBranch (op : BitVec 4) : Bool := op == 6 || op == 7

/-- The two-token forms of a branch (R106) and of `PRT` (R108); no other mnemonic has one. -/
def encodeTwo (op : BitVec 4) (a : Chars) : Except AsmError Word :=
  if isBranch op then do
    let b ← operandByte a
    return encodeFields ⟨op, 0, 0, b⟩
  else if op = 0 then
    if isRegisterRef a then do
      let r ← registerToken a
      return encodeFields ⟨op, r, 2, 0⟩
    else do
      let b ← operandByte a
      return encodeFields ⟨op, 0, 0, b⟩
  else .error .wrongTokenCount

/-- The three-token form of SET, ADD, SUB, MUL, DIV, EQL, CBP and CLP (R107). -/
def encodeThree (op : BitVec 4) (a b : Chars) : Except AsmError Word :=
  if isBranch op || op == 0 then .error .wrongTokenCount
  else do
    let r ← registerToken a
    if isRegisterRef b then do
      let s ← registerToken b
      return encodeFields ⟨op, r, 1, s.setWidth 8⟩
    else do
      let n ← operandByte b
      return encodeFields ⟨op, r, 0, n⟩

/-- The full four-token form, with its errors in the order of R109. -/
def encodeFull (m a t n : Chars) : Except AsmError Word :=
  match mnemonics.lookup m with
  | none => .error .unknownMnemonic
  | some op => do
    let r ← registerToken a
    let ty ← typeToken t
    let b ← operandByte n
    return encodeFields ⟨op, r, ty, b⟩

/-- One line's tokens as a word (R106 to R109). A line with no known short form needs four tokens. -/
def encodeTokens : List Chars → Except AsmError Word
  | [m, a] =>
    match mnemonics.lookup m with
    | some op => encodeTwo op a
    | none => .error .wrongTokenCount
  | [m, a, b] =>
    match mnemonics.lookup m with
    | some op => encodeThree op a b
    | none => .error .wrongTokenCount
  | [m, a, t, n] => encodeFull m a t n
  | _ => .error .wrongTokenCount

/-! ## The passes over the whole text, and the artifact (R110) -/

/-- Name the line an error came from. -/
def atLine {α : Type} (l : Chars) : Except AsmError α → Except AsmFailure α
  | .ok x => .ok x
  | .error e => .error ⟨e, l⟩

/-- The substitution pass: each retained line beside its resolved text. -/
def resolveAll (t : LabelTable) : List Chars → Except AsmFailure (List (Chars × Chars))
  | [] => .ok []
  | l :: ls => do
    let r ← atLine l (substitute t l none)
    let rs ← resolveAll t ls
    return (l, r) :: rs

/-- The encoding pass. -/
def encodeAll : List (Chars × Chars) → Except AsmFailure (List Word)
  | [] => .ok []
  | (l, r) :: ls => do
    let w ← atLine l (encodeTokens (splitSpaces r))
    let ws ← encodeAll ls
    return w :: ws

/-- Assemble trimmed lines into instruction words (R100 to R109). -/
def assembleWords (lines : List Chars) : Except AsmFailure (List Word) := do
  let r ← collect lines 0 []
  let rs ← resolveAll r.1 r.2
  encodeAll rs

/-- Assemble trimmed lines into the artifact (R110): four bytes a word, most-significant byte first. -/
def assemble (lines : List String) : Except AsmFailure (List Byte) := do
  let ws ← assembleWords (lines.map String.toList)
  return ws.flatMap wordBytes

end Sys2Proof.Asm
end

