-- ==== Sys2Proof/Safety.lean ====
section
/-! DEFINITION. The terms claims are stated in: what a state's registers, flag and operands hold for a reader of the
spec (said without the model's read operations), what a completed instruction and a fault leave, a run, the invariant
of the machine, and agreement of two states up to bits that no instruction may see. -/

namespace Sys2Proof.Machine

/-! ## What a register, an operand and the flag hold -/

/-- Register `r` reads as `v` (10_state.md R31, R33): the value last written, or 0 before the first write under
`REG_RESET = Zero`. -/
abbrev State.holds (s : State) (r : RegIdx) (v : Int) : Prop :=
  (s.regWritten r = true ∧ (s.reg r).toInt = v) ∨ (s.regWritten r = false ∧ s.params.regReset = .zero ∧ v = 0)

/-- A read of register `r` raises `UninitializedRegister` (R33). -/
abbrev State.unreadable (s : State) (r : RegIdx) : Prop :=
  s.regWritten r = false ∧ s.params.regReset = .unwritten

/-- A register-indirect operand names no register (40_execution_cycle.md R144). -/
abbrev sourceOutOfRange (typ : TypeTag) (opnd : Byte) : Prop := typ = 1#2 ∧ 16 ≤ opnd.toNat

/-- The source operand of SET, ADD, SUB, MUL and DIV is `v` (R144). -/
abbrev State.sourceHolds (s : State) (typ : TypeTag) (opnd : Byte) (v : Int) : Prop :=
  (typ = 1#2 ∧ opnd.toNat < 16 ∧ s.holds (BitVec.ofNat 4 opnd.toNat) v) ∨ (typ ≠ 1#2 ∧ v = smag opnd)

/-- The source operand is a register that may not be read yet (R33, R144). -/
abbrev State.sourceUnreadable (s : State) (typ : TypeTag) (opnd : Byte) : Prop :=
  typ = 1#2 ∧ opnd.toNat < 16 ∧ s.unreadable (BitVec.ofNat 4 opnd.toNat)

/-- A comparison of this type reads a source register (44_compare.md R223). -/
abbrev State.comparesRegister (s : State) (typ : TypeTag) : Prop := s.params.cmpType1 = .register ∧ typ = 1#2

/-- The comparand of EQL, CBP and CLP is `v` (R223). -/
abbrev State.comparandHolds (s : State) (typ : TypeTag) (opnd : Byte) (v : Int) : Prop :=
  (s.comparesRegister typ ∧ opnd.toNat < 16 ∧ s.holds (BitVec.ofNat 4 opnd.toNat) v) ∨
    (¬ s.comparesRegister typ ∧ v = smag opnd)

/-- The flag reads as `b` (10_state.md R37, R38). -/
abbrev State.flagHolds (s : State) (b : Bool) : Prop :=
  (s.flagWritten = true ∧ s.flag = b) ∨
    (s.flagWritten = false ∧
      ((s.params.flagReset = .isFalse ∧ b = false) ∨ (s.params.flagReset = .isTrue ∧ b = true)))

/-- A branch raises `UninitializedFlag` (R38). -/
abbrev State.flagUnreadable (s : State) : Prop := s.flagWritten = false ∧ s.params.flagReset = .unwritten

/-! ## What an instruction leaves -/

/-- The status after a completion (R147): halted when the new tick count exceeds the limit, else as before. -/
def State.statusAfterTick (s : State) : Status :=
  match s.params.tickLimit with
  | none => s.status
  | some l => if l < s.tick + 1 then .halted else s.status

/-- `t` is `s` after an instruction that completed with next program counter `next` (R146, R147), so far as `pc`, the
tick counter, the status, every byte of the program image and the parameters go. -/
abbrev State.completedTo (s t : State) (next : Nat) : Prop :=
  t.pc = next ∧ t.tick = s.tick + 1 ∧ t.status = s.statusAfterTick ∧ t.program = s.program ∧ t.params = s.params

/-- Every register and written bit is as before. -/
abbrev State.sameRegisters (s t : State) : Prop := t.regs = s.regs ∧ t.written = s.written

/-- Register `r` now holds `v` and is written; every other register and written bit is as before. -/
abbrev State.wroteOnly (s t : State) (r : RegIdx) (v : Int) : Prop :=
  (t.reg r).toInt = v ∧ t.regWritten r = true ∧
    ∀ q : RegIdx, q ≠ r → t.reg q = s.reg q ∧ t.regWritten q = s.regWritten q

/-- The flag and its written state are as before. -/
abbrev State.sameFlag (s t : State) : Prop := t.flag = s.flag ∧ t.flagWritten = s.flagWritten

/-- The fault record of 60_exceptions.md R242 on an otherwise unchanged state. -/
abbrev State.faultedBy (s : State) (c : Cause) (w : Word) : State :=
  { s with status := .faulted c (some s.pc) (some w) }

/-- Instruction `i` raises `c` on `s` and changes nothing but the status (R242). -/
abbrev raises (i : Instr) (s : State) (c : Cause) : Prop := exec i s = .next (s.faultedBy c (encode i))

/-- The state of an outcome that is a next state. -/
def nextState? : Host.Outcome State Fault Refusal → Option State
  | .next t => some t
  | .fault _ => none
  | .refused _ => none

/-- The status is a fault record. -/
def Status.isFault : Status → Bool
  | .faulted _ _ _ => true
  | .running => false
  | .halted => false

/-- A status with the index of its fault record left out. -/
def Status.eraseIndex : Status → Status
  | .faulted c _ w => .faulted c none w
  | .running => .running
  | .halted => .halted

/-- A state with the word of its fault record left out. -/
def State.eraseWord (s : State) : State :=
  match s.status with
  | .faulted c p _ => { s with status := .faulted c p none }
  | .running => s
  | .halted => s

/-- Two instructions do the same on `s`, the word in a fault record apart. -/
abbrev sameEffect (i j : Instr) (s : State) : Prop :=
  (nextState? (exec i s)).map State.eraseWord = (nextState? (exec j s)).map State.eraseWord

/-! ## Runs (R150) -/

/-- The state after at most `k` steps; a state that has no step stays. -/
def State.runFor : Nat → State → State
  | 0, s => s
  | k + 1, s =>
    match step s with
    | .next t => State.runFor k t
    | .fault _ => s
    | .refused _ => s

/-- A safe run of `k` steps ends in no fault record. -/
def State.safeFor (s : State) (k : Nat) : Prop := (s.runFor k).status.isFault = false

/-! ## The invariant of the machine -/

/-- What holds of every state of every run (an obligation states so). -/
structure State.Inv (s : State) : Prop where
  /-- Every output entry is in -128..127 (R41). -/
  outInRange : ∀ v ∈ s.out, InByteRange v
  /-- The program image is in canonical form (20_memory.md R61; the model's representation). -/
  imageCanonical : s.program.wf = true
  /-- `pc` never exceeds `max(n, 254)` (92_eei_decisions.md D13). -/
  pcBound : s.pc ≤ max s.program.length 254
  /-- A machine that still runs is within its tick limit (R147). -/
  runningWithinLimit : ∀ l, s.params.tickLimit = some l → s.status = .running → s.tick ≤ l
  /-- At most `L + 1` instructions complete (R147). -/
  tickBound : ∀ l, s.params.tickLimit = some l → s.tick ≤ l + 1
  /-- A halted machine ran past its program or over its tick limit (R42, R150). -/
  haltReason : s.status = .halted → s.program.length ≤ s.pc ∨ ∃ l, s.params.tickLimit = some l ∧ l < s.tick
  /-- A fault record names the instruction at `pc`, or is the load-time record (R241, R242). -/
  faultRecord : ∀ c p w, s.status = .faulted c p w →
    (c = .malformedArtifact ∧ p = none ∧ w = none) ∨
      (c ≠ .malformedArtifact ∧ p = some s.pc ∧ w = s.fetch ∧ s.pc < s.program.length)

/-! ## Agreement up to unwritten bits -/

/-- Two states that differ at most in the bits stored behind unwritten registers and an unwritten flag. -/
structure State.AgreeWhereWritten (s t : State) : Prop where
  written : s.written = t.written
  regs : ∀ r : RegIdx, s.regWritten r = true → s.reg r = t.reg r
  flagWritten : s.flagWritten = t.flagWritten
  flag : s.flagWritten = true → s.flag = t.flag
  pc : s.pc = t.pc
  tick : s.tick = t.tick
  out : s.out = t.out
  status : s.status = t.status
  program : s.program = t.program
  params : s.params = t.params

/-- Two outcomes of one kind, with agreeing next states or equal reasons. -/
def OutcomesAgree : Host.Outcome State Fault Refusal → Host.Outcome State Fault Refusal → Prop
  | .next s, .next t => s.AgreeWhereWritten t
  | .fault a, .fault b => a = b
  | .refused a, .refused b => a = b
  | _, _ => False

/-! ## The spec's per-instruction tables -/

/-- The register an instruction may write (10_state.md R32, R34). -/
def writesRegister : Instr → Option RegIdx
  | .set r _ _ => some r
  | .add r _ _ => some r
  | .sub r _ _ => some r
  | .mul r _ _ => some r
  | .div r _ _ => some r
  | .prt _ _ _ => none
  | .jmp _ _ _ => none
  | .jnp _ _ _ => none
  | .eql _ _ _ => none
  | .cbp _ _ _ => none
  | .clp _ _ _ => none

/-- EQL, CBP or CLP: the writers of the flag (R37). -/
def isComparison : Instr → Bool
  | .eql _ _ _ => true
  | .cbp _ _ _ => true
  | .clp _ _ _ => true
  | .prt _ _ _ => false
  | .set _ _ _ => false
  | .add _ _ _ => false
  | .sub _ _ _ => false
  | .mul _ _ _ => false
  | .div _ _ _ => false
  | .jmp _ _ _ => false
  | .jnp _ _ _ => false

/-- PRT: the writer of the output stream (R41). -/
def isPrint : Instr → Bool
  | .prt _ _ _ => true
  | .set _ _ _ => false
  | .add _ _ _ => false
  | .sub _ _ _ => false
  | .mul _ _ _ => false
  | .div _ _ _ => false
  | .jmp _ _ _ => false
  | .jnp _ _ _ => false
  | .eql _ _ _ => false
  | .cbp _ _ _ => false
  | .clp _ _ _ => false

/-- The operand of a branch that is taken on `s` (43_branch.md R200, R202, R203); none for every other instruction. -/
def takenOperand (s : State) : Instr → Option Nat
  | .jmp _ _ n => if s.flagHolds true then some n.toNat else none
  | .jnp _ _ n => if s.flagHolds false then some n.toNat else none
  | .prt _ _ _ => none
  | .set _ _ _ => none
  | .add _ _ _ => none
  | .sub _ _ _ => none
  | .mul _ _ _ => none
  | .div _ _ _ => none
  | .eql _ _ _ => none
  | .cbp _ _ _ => none
  | .clp _ _ _ => none

/-- The causes an instruction can raise under these parameters (60_exceptions.md R240). -/
def mayRaise (p : Params) : Instr → Cause → Prop
  | .prt _ t _, c => t = 2#2 ∧ c = .uninitializedRegister
  | .set _ t _, c => t = 1#2 ∧ (c = .registerOutOfRange ∨ c = .uninitializedRegister)
  | .add _ t _, c => (t = 1#2 ∧ c = .registerOutOfRange) ∨ c = .uninitializedRegister ∨ c = .arithmeticOverflow
  | .sub _ t _, c => (t = 1#2 ∧ c = .registerOutOfRange) ∨ c = .uninitializedRegister ∨ c = .arithmeticOverflow
  | .mul _ t _, c => (t = 1#2 ∧ c = .registerOutOfRange) ∨ c = .uninitializedRegister ∨ c = .arithmeticOverflow
  | .div _ t _, c =>
    (t = 1#2 ∧ c = .registerOutOfRange) ∨ c = .uninitializedRegister ∨ c = .divideByZero ∨ c = .arithmeticOverflow
  | .jmp _ _ _, c => c = .uninitializedFlag
  | .jnp _ _ _, c => c = .uninitializedFlag
  | .eql _ t _, c => (p.cmpType1 = .register ∧ t = 1#2 ∧ c = .registerOutOfRange) ∨ c = .uninitializedRegister
  | .cbp _ t _, c => (p.cmpType1 = .register ∧ t = 1#2 ∧ c = .registerOutOfRange) ∨ c = .uninitializedRegister
  | .clp _ t _, c => (p.cmpType1 = .register ∧ t = 1#2 ∧ c = .registerOutOfRange) ∨ c = .uninitializedRegister

end Sys2Proof.Machine

/-! ## The retained lines of a source text -/

/-- The retained instruction stream (30_encoding.md R100): the lines that are no comment, label definition or blank. -/
def Sys2Proof.Asm.retained (lines : List Sys2Proof.Asm.Chars) : List Sys2Proof.Asm.Chars :=
  lines.filter fun l => decide (Sys2Proof.Asm.classify l = .instruction)
end

