-- ==== Sys2Proof/Certificates/Slice0/Obligations.lean ====
section
/-! DEFINITION. The statements for the provers, in the terms of Safety.lean. OBLIGATIONS.json says of each which rules of
spec/ it formalises. The statements speak of the machine, of no program. -/

open Sys2Proof Sys2Proof.Machine

/-! ## The codec -/

/-- One word of each instruction, written out from 30_encoding.md R80 and R90 and 95_test_vectors.md, decodes to it.
The bits are bits 31..18, then op, reg, typ and opnd; the last four words decode to no instruction. -/
def Obligations.SpecWordsDecode : Prop :=
  decodeWord 0b00000000000000_0000_0011_10_00000000#32 = .ok (.prt 3 2 0x00) ∧
  decodeWord 0b00000000000000_0001_0010_00_11111111#32 = .ok (.set 2 0 0xFF) ∧
  decodeWord 0b00000000000000_0010_0001_01_00000001#32 = .ok (.add 1 1 0x01) ∧
  decodeWord 0b00000000000000_0011_0000_00_00000101#32 = .ok (.sub 0 0 0x05) ∧
  decodeWord 0b00000000000000_0100_0000_00_10000001#32 = .ok (.mul 0 0 0x81) ∧
  decodeWord 0b00000000000000_0101_0010_01_00000010#32 = .ok (.div 2 1 0x02) ∧
  decodeWord 0b00000000000000_0110_0111_11_00000101#32 = .ok (.jmp 7 3 0x05) ∧
  decodeWord 0b00000000000000_0111_0000_00_00000101#32 = .ok (.jnp 0 0 0x05) ∧
  decodeWord 0b00000000000000_1000_0001_01_00000010#32 = .ok (.eql 1 1 0x02) ∧
  decodeWord 0b00000000000000_1001_0000_00_01111111#32 = .ok (.cbp 0 0 0x7F) ∧
  decodeWord 0b00000000000000_1010_1111_00_11111111#32 = .ok (.clp 15 0 0xFF) ∧
  decodeWord 0x0002C000#32 = .error .illegalOpcode ∧
  decodeWord 0x0003FFFF#32 = .error .illegalOpcode ∧
  decodeWord 0x00040001#32 = .error .malformedWord ∧
  decodeWord 0x80004001#32 = .error .malformedWord

/-- R82: the encoder places opcode, register, type and operand at bits 17..14, 13..10, 9..8 and 7..0, and bits 31..18
are 0. As a number the word is the sum of the fields at their places. -/
def Obligations.FieldEncoderPlacesEachField : Prop :=
  ∀ f : Fields,
    (encodeFields f).toNat =
      f.op.toNat * 2 ^ 14 + f.reg.toNat * 2 ^ 10 + f.typ.toNat * 2 ^ 8 + f.opnd.toNat ∧
    (encodeFields f).extractLsb' 18 14 = 0#14

/-- R84: the decoder splits bits 17..14, 13..10, 9..8 and 7..0 off any word. -/
def Obligations.FieldDecoderSplitsEveryWord : Prop :=
  ∀ w : Word,
    (decodeFields w).op.toNat = w.toNat / 2 ^ 14 % 2 ^ 4 ∧
    (decodeFields w).reg.toNat = w.toNat / 2 ^ 10 % 2 ^ 4 ∧
    (decodeFields w).typ.toNat = w.toNat / 2 ^ 8 % 2 ^ 2 ∧
    (decodeFields w).opnd.toNat = w.toNat % 2 ^ 8

/-- The round trip of the pure codec (30_encoding.md section 3): every field tuple comes back, every word with bits 31..18
clear comes back, and any other word comes back with those bits cleared. -/
def Obligations.FieldTuplesAndWordsRoundTrip : Prop :=
  (∀ f : Fields, decodeFields (encodeFields f) = f) ∧
  (∀ w : Word, wordHighBitsClear w = true → encodeFields (decodeFields w) = w) ∧
  (∀ w : Word, encodeFields (decodeFields w) = w &&& 0x0003FFFF#32)

/-- R90: an instruction is selected by the opcode field alone, with bits 31..18 zero (mask 0xFFFFC000); its other fields
are the word's; opcodes 11..15 select none. -/
def Obligations.OpcodeFieldAloneSelects : Prop :=
  ∀ w : Word,
    (w &&& 0xFFFFC000#32 = 0x00000#32 →
      decodeWord w = .ok (.prt (decodeFields w).reg (decodeFields w).typ (decodeFields w).opnd)) ∧
    (w &&& 0xFFFFC000#32 = 0x04000#32 →
      decodeWord w = .ok (.set (decodeFields w).reg (decodeFields w).typ (decodeFields w).opnd)) ∧
    (w &&& 0xFFFFC000#32 = 0x08000#32 →
      decodeWord w = .ok (.add (decodeFields w).reg (decodeFields w).typ (decodeFields w).opnd)) ∧
    (w &&& 0xFFFFC000#32 = 0x0C000#32 →
      decodeWord w = .ok (.sub (decodeFields w).reg (decodeFields w).typ (decodeFields w).opnd)) ∧
    (w &&& 0xFFFFC000#32 = 0x10000#32 →
      decodeWord w = .ok (.mul (decodeFields w).reg (decodeFields w).typ (decodeFields w).opnd)) ∧
    (w &&& 0xFFFFC000#32 = 0x14000#32 →
      decodeWord w = .ok (.div (decodeFields w).reg (decodeFields w).typ (decodeFields w).opnd)) ∧
    (w &&& 0xFFFFC000#32 = 0x18000#32 →
      decodeWord w = .ok (.jmp (decodeFields w).reg (decodeFields w).typ (decodeFields w).opnd)) ∧
    (w &&& 0xFFFFC000#32 = 0x1C000#32 →
      decodeWord w = .ok (.jnp (decodeFields w).reg (decodeFields w).typ (decodeFields w).opnd)) ∧
    (w &&& 0xFFFFC000#32 = 0x20000#32 →
      decodeWord w = .ok (.eql (decodeFields w).reg (decodeFields w).typ (decodeFields w).opnd)) ∧
    (w &&& 0xFFFFC000#32 = 0x24000#32 →
      decodeWord w = .ok (.cbp (decodeFields w).reg (decodeFields w).typ (decodeFields w).opnd)) ∧
    (w &&& 0xFFFFC000#32 = 0x28000#32 →
      decodeWord w = .ok (.clp (decodeFields w).reg (decodeFields w).typ (decodeFields w).opnd)) ∧
    (0x2C000 ≤ (w &&& 0xFFFFC000#32).toNat → (w &&& 0xFFFFC000#32).toNat ≤ 0x3C000 →
      decodeWord w = .error .illegalOpcode)

/-- Decode and encode agree: every instruction, with every value of every field, comes back from its word and from its
four big-endian bytes, whatever bytes follow. -/
def Obligations.EncodedInstructionsDecodeBack : Prop :=
  ∀ (i : Instr) (rest : List Byte),
    decodeWord (encode i) = .ok i ∧ decodeBytes (wordBytes (encode i) ++ rest) = .ok (i, rest)

/-- Each word has at most one meaning: a word decodes to `i` exactly when it is the word of `i`, and the words that
decode to nothing are those with a high bit set and, of the others, those with an opcode above 10. -/
def Obligations.EachWordHasOneMeaning : Prop :=
  ∀ w : Word,
    (∀ i : Instr, decodeWord w = .ok i ↔ w = encode i) ∧
    (decodeWord w = .error .malformedWord ↔ wordHighBitsClear w = false) ∧
    (decodeWord w = .error .illegalOpcode ↔ wordHighBitsClear w = true ∧ wordOpcodeUsed w = false)

/-- R87: a byte with bit 7 set is minus its low seven bits, any other byte its low seven bits; the range is -127..127,
0x80 is 0 as 0x00 is, and no byte is -128. -/
def Obligations.SignMagnitudeByteValue : Prop :=
  ∀ b : Byte,
    (b.getLsbD 7 = true → smag b = -((b.toNat % 128 : Nat) : Int)) ∧
    (b.getLsbD 7 = false → smag b = ((b.toNat % 128 : Nat) : Int)) ∧
    -127 ≤ smag b ∧ smag b ≤ 127 ∧ smag 0x80#8 = 0 ∧ smag 0x00#8 = 0 ∧ smag b ≠ -128

/-- R88: a literal of magnitude above 127 is rejected; a negative one is bit 7 and its magnitude, any other itself. A
token that spells the literal gets that byte at the assembler boundary, or the error `OperandOutOfRange`. -/
def Obligations.LiteralByteEncoding : Prop :=
  (∀ v : Int,
    (127 < v.natAbs → smenc v = none) ∧
    (v.natAbs ≤ 127 → v < 0 → ∃ b, smenc v = some b ∧ b.toNat = 128 + v.natAbs) ∧
    (v.natAbs ≤ 127 → 0 ≤ v → ∃ b, smenc v = some b ∧ b.toNat = v.natAbs)) ∧
  (∀ (tok : Asm.Chars) (v : Int), Asm.literal? tok = some v →
    (127 < v.natAbs → Asm.operandByte tok = .error .operandOutOfRange) ∧
    (v.natAbs ≤ 127 → ∃ b, smenc v = some b ∧ Asm.operandByte tok = .ok b))

/-- The sign laws (30_encoding.md section 4): a literal comes back from its byte, and a byte from its value but for 0x80,
which comes back as 0x00. -/
def Obligations.SignMagnitudeLaws : Prop :=
  (∀ v : Int, -127 ≤ v → v ≤ 127 → ∃ b, smenc v = some b ∧ smag b = v) ∧
  (∀ b : Byte, b ≠ 0x80#8 → smenc (smag b) = some b) ∧
  smenc (smag 0x80#8) = some 0x00#8

/-! ## The program image, construction and reset -/

/-- The load (20_memory.md section 2; decision D25): an artifact whose length is a multiple of 4 gives `L / 4` words, word
`i` its bytes 4i..4i+3 with byte 4i in bits 31..24. -/
def Obligations.LoadBuildsBigEndianWords : Prop :=
  ∀ (p : Params) (artifact : List Byte), artifact.length % 4 = 0 →
    (State.construct p artifact).program.length = artifact.length / 4 ∧
    ∀ (i : Nat) (b0 b1 b2 b3 : Byte),
      artifact[4 * i]? = some b0 → artifact[4 * i + 1]? = some b1 →
      artifact[4 * i + 2]? = some b2 → artifact[4 * i + 3]? = some b3 →
      ∃ w, (State.construct p artifact).program.fetch i = some w ∧
        w.toNat = b0.toNat * 2 ^ 24 + b1.toNat * 2 ^ 16 + b2.toNat * 2 ^ 8 + b3.toNat

/-- The load fault (60_exceptions.md section 1): an artifact of any other length gives a machine that never steps. -/
def Obligations.MalformedArtifactNeverRuns : Prop :=
  ∀ (p : Params) (artifact : List Byte), artifact.length % 4 ≠ 0 →
    (State.construct p artifact).status = .faulted .malformedArtifact none none ∧
    step (State.construct p artifact) = .fault .stepWhileFaulted

/-- R64: `Fetch(i)` is the whole word of the image at `i` when `i < n`, and none otherwise. -/
def Obligations.FetchGivesTheWordOrNone : Prop :=
  ∀ (p : ProgramImage) (i : Nat),
    (i < p.length → ∃ b0 b1 b2 b3 : Byte,
      p.readByte (4 * i) = some b0 ∧ p.readByte (4 * i + 1) = some b1 ∧
      p.readByte (4 * i + 2) = some b2 ∧ p.readByte (4 * i + 3) = some b3 ∧
      p.fetch i = some (b0 ++ b1 ++ b2 ++ b3)) ∧
    (p.length ≤ i → p.fetch i = none)

/-- What construction leaves (10_state.md section 8, 70_reset_and_hazards.md section 1; decisions D2, D3, D12, D16, D25):
`pc` and `tick` are 0, the status is running, no register and no flag is written, `Out` is empty, the parameters are
those chosen; the reset state is the construction from no bytes with the defaults of 00_scope.md section 3. Nothing is
said of the bits behind an unwritten register or flag: those are the model's choice (log entry 2). That the written bits
are clear under `REG_RESET = Zero`, and the flag's written state under `FLAG_RESET = False` or `True`, is the model's
choice too (log entry 30). -/
def Obligations.ConstructionLeavesTheSpecState : Prop :=
  (∀ (p : Params) (artifact : List Byte), artifact.length % 4 = 0 →
    (State.construct p artifact).pc = 0 ∧ (State.construct p artifact).tick = 0 ∧
    (State.construct p artifact).status = .running ∧ (State.construct p artifact).out = [] ∧
    (∀ r : RegIdx, (State.construct p artifact).regWritten r = false) ∧
    (State.construct p artifact).flagWritten = false ∧ (State.construct p artifact).params = p) ∧
  State.reset = State.construct ⟨.unwritten, .unwritten, .literal, none⟩ []

/-- Before the first write (10_state.md sections 1 and 3; decisions D2, D3), of every constructed machine: under
`REG_RESET = Zero` every register reads 0 and under `Unwritten` every read raises `UninitializedRegister`; under
`FLAG_RESET = False` and `True` the flag reads so and under `Unwritten` its read raises `UninitializedFlag`. -/
def Obligations.ReadsBeforeTheFirstWrite : Prop :=
  ∀ (p : Params) (artifact : List Byte), artifact.length % 4 = 0 →
    (∀ r : RegIdx, p.regReset = .zero → (State.construct p artifact).readReg r = .ok 0) ∧
    (∀ r : RegIdx, p.regReset = .unwritten →
      (State.construct p artifact).readReg r = .error .uninitializedRegister) ∧
    (p.flagReset = .isFalse → (State.construct p artifact).readFlag = .ok false) ∧
    (p.flagReset = .isTrue → (State.construct p artifact).readFlag = .ok true) ∧
    (p.flagReset = .unwritten → (State.construct p artifact).readFlag = .error .uninitializedFlag)

/-! ## The step -/

/-- A step of a running machine whose word at `pc` decodes to an instruction is that instruction's meaning: the step adds
nothing around it (40_execution_cycle.md section 2). -/
def Obligations.StepRunsTheDecodedInstruction : Prop :=
  ∀ (s : State) (w : Word) (i : Instr), s.status = .running → s.program.fetch s.pc = some w →
    decodeWord w = .ok i → step s = exec i s

/-- R142: a step at or past the end of the program halts the machine and changes nothing else. -/
def Obligations.StepPastTheEndHalts : Prop :=
  ∀ s : State, s.status = .running → s.program.length ≤ s.pc → step s = .next { s with status := .halted }

/-- The decode checks in their order (40_execution_cycle.md section 2, 30_encoding.md section 6; decisions D4, D5, D11): a
word with a bit of 31..18 set raises `MalformedWord` whatever its opcode, any other word with an opcode above 10 raises
`IllegalOpcode`; the record names `pc` and the word, and nothing else changes. -/
def Obligations.StepFaultsOnWordsThatAreNoInstruction : Prop :=
  ∀ (s : State) (w : Word), s.status = .running → s.program.fetch s.pc = some w →
    (w.extractLsb' 18 14 ≠ 0#14 →
      step s = .next { s with status := .faulted .malformedWord (some s.pc) (some w) }) ∧
    (w.extractLsb' 18 14 = 0#14 → 10 < (w.extractLsb' 14 4).toNat →
      step s = .next { s with status := .faulted .illegalOpcode (some s.pc) (some w) })

/-- A halted and a faulted machine has no step (40_execution_cycle.md section 1; U18 of 93_implementation_defined.md): the
model's step then stops by name. -/
def Obligations.TerminalStatusHasNoStep : Prop :=
  (∀ s : State, s.status = .halted → step s = .fault .stepWhileHalted) ∧
  (∀ (s : State) (c : Cause) (p : Option Nat) (w : Option Word), s.status = .faulted c p w →
    step s = .fault .stepWhileFaulted)

/-! ## The instructions -/

/-- PRT (41_print_and_set.md, its first rule): type 0 appends the signed operand, type 2 appends the register, types 1 and 3 append nothing; every form
advances `pc` by one and counts one tick, and registers and flag stay. A type-2 read of an unwritten register under
`REG_RESET = Unwritten` raises `UninitializedRegister` (decision D2, log entry 3), and that fault leaves all but the
status (decision D10, log entry 18); no other fault is possible. -/
def Obligations.PrintFollowsItsType : Prop :=
  (∀ (reg : RegIdx) (typ : TypeTag) (opnd : Byte), encode (.prt reg typ opnd) = encodeFields ⟨0, reg, typ, opnd⟩) ∧
  ∀ (reg : RegIdx) (opnd : Byte) (s : State),
    (∃ t, exec (.prt reg 0#2 opnd) s = .next t ∧ t.out = s.out ++ [smag opnd] ∧ s.sameRegisters t ∧ s.sameFlag t ∧
      s.completedTo t (s.pc + 1)) ∧
    (∀ v, s.holds reg v → ∃ t, exec (.prt reg 2#2 opnd) s = .next t ∧ t.out = s.out ++ [v] ∧ s.sameRegisters t ∧
      s.sameFlag t ∧ s.completedTo t (s.pc + 1)) ∧
    (s.unreadable reg → raises (.prt reg 2#2 opnd) s .uninitializedRegister) ∧
    (∃ t, exec (.prt reg 1#2 opnd) s = .next t ∧ t.out = s.out ∧ s.sameRegisters t ∧ s.sameFlag t ∧
      s.completedTo t (s.pc + 1)) ∧
    (∃ t, exec (.prt reg 3#2 opnd) s = .next t ∧ t.out = s.out ∧ s.sameRegisters t ∧ s.sameFlag t ∧
      s.completedTo t (s.pc + 1))

/-- SET (41_print_and_set.md, its second rule; decisions D2, D6, D10, log entries 3, 12, 18): type 1 with an operand byte of 16 or more raises
`RegisterOutOfRange`, with an unreadable source `UninitializedRegister`; otherwise the target alone takes the source
register's value or the signed operand. The target is not read. -/
def Obligations.SetWritesItsOperand : Prop :=
  ∀ (reg : RegIdx) (typ : TypeTag) (opnd : Byte) (s : State),
    encode (.set reg typ opnd) = encodeFields ⟨1, reg, typ, opnd⟩ ∧
    (sourceOutOfRange typ opnd → raises (.set reg typ opnd) s .registerOutOfRange) ∧
    (s.sourceUnreadable typ opnd → raises (.set reg typ opnd) s .uninitializedRegister) ∧
    (∀ v, s.sourceHolds typ opnd v → ∃ t, exec (.set reg typ opnd) s = .next t ∧ s.wroteOnly t reg v ∧ s.sameFlag t ∧
      t.out = s.out ∧ s.completedTo t (s.pc + 1))

/-- The rule ADD, SUB and MUL share, for `i`, its opcode and its exact operation: the encoding, then the five exclusive
cases of the pseudocode in the order of 60_exceptions.md R244 (decision D11, log entry 17); a fault leaves all but the
status (decision D10, log entry 18), and the last case writes the exact result to the target alone. -/
def Sys2Proof.Machine.ExactArithmetic (i : Instr) (code : BitVec 4) (op : Int → Int → Int) (reg : RegIdx)
    (typ : TypeTag) (opnd : Byte) (s : State) : Prop :=
  encode i = encodeFields ⟨code, reg, typ, opnd⟩ ∧
  (sourceOutOfRange typ opnd → raises i s .registerOutOfRange) ∧
  (¬ sourceOutOfRange typ opnd → s.unreadable reg → raises i s .uninitializedRegister) ∧
  (∀ a, s.holds reg a → s.sourceUnreadable typ opnd → raises i s .uninitializedRegister) ∧
  (∀ a b, s.holds reg a → s.sourceHolds typ opnd b → ¬ InByteRange (op a b) → raises i s .arithmeticOverflow) ∧
  (∀ a b, s.holds reg a → s.sourceHolds typ opnd b → InByteRange (op a b) →
    ∃ t, exec i s = .next t ∧ s.wroteOnly t reg (op a b) ∧ s.sameFlag t ∧ t.out = s.out ∧ s.completedTo t (s.pc + 1))

/-- ADD (42_arithmetic.md section 1; decisions D2, D6, D10, D11, log entries 3, 12, 18, 17): the exact sum of target and
source. -/
def Obligations.AddWritesTheExactSum : Prop :=
  ∀ (reg : RegIdx) (typ : TypeTag) (opnd : Byte) (s : State),
    ExactArithmetic (.add reg typ opnd) 2 (fun a b => a + b) reg typ opnd s

/-- SUB (42_arithmetic.md section 1; decisions D2, D6, D9, D10, D11, log entries 3, 12, 10, 18, 17): the exact difference,
target minus source. -/
def Obligations.SubWritesTheExactDifference : Prop :=
  ∀ (reg : RegIdx) (typ : TypeTag) (opnd : Byte) (s : State),
    ExactArithmetic (.sub reg typ opnd) 3 (fun a b => a - b) reg typ opnd s

/-- MUL (42_arithmetic.md section 1; decisions D2, D6, D10, D11, log entries 3, 12, 18, 17): the exact product. -/
def Obligations.MulWritesTheExactProduct : Prop :=
  ∀ (reg : RegIdx) (typ : TypeTag) (opnd : Byte) (s : State),
    ExactArithmetic (.mul reg typ opnd) 4 (fun a b => a * b) reg typ opnd s

/-- DIV (42_arithmetic.md sections 1 and 2; decisions D2, D6, D8 to D11, log entries 3, 12, 9, 10, 18, 17): a zero divisor raises `DivideByZero`; -128 divided
by -1 and nothing else overflows; otherwise the target alone takes the quotient rounded toward zero. The rounding of a
negative inexact quotient is the spec's general knowledge GK1 (log entry 9), not a statement of the source. -/
def Obligations.DivWritesTheTruncatedQuotient : Prop :=
  ∀ (reg : RegIdx) (typ : TypeTag) (opnd : Byte) (s : State),
    encode (.div reg typ opnd) = encodeFields ⟨5, reg, typ, opnd⟩ ∧
    (sourceOutOfRange typ opnd → raises (.div reg typ opnd) s .registerOutOfRange) ∧
    (¬ sourceOutOfRange typ opnd → s.unreadable reg → raises (.div reg typ opnd) s .uninitializedRegister) ∧
    (∀ a, s.holds reg a → s.sourceUnreadable typ opnd → raises (.div reg typ opnd) s .uninitializedRegister) ∧
    (∀ a, s.holds reg a → s.sourceHolds typ opnd 0 → raises (.div reg typ opnd) s .divideByZero) ∧
    (s.holds reg (-128) → s.sourceHolds typ opnd (-1) → raises (.div reg typ opnd) s .arithmeticOverflow) ∧
    (∀ a b, s.holds reg a → s.sourceHolds typ opnd b → b ≠ 0 → ¬ (a = -128 ∧ b = -1) →
      ∃ t, exec (.div reg typ opnd) s = .next t ∧ s.wroteOnly t reg (a.tdiv b) ∧ s.sameFlag t ∧ t.out = s.out ∧
        s.completedTo t (s.pc + 1))

/-- The quotient (42_arithmetic.md section 2; decision D8, GK1, log entry 9): rounding toward zero, said by the remainder:
it is smaller than the divisor in magnitude and has the dividend's sign or is zero. -/
def Obligations.QuotientRoundsTowardZero : Prop :=
  ∀ a b : Int, b ≠ 0 →
    (a - b * quot a b).natAbs < b.natAbs ∧ (0 ≤ a → 0 ≤ a - b * quot a b) ∧ (a ≤ 0 → a - b * quot a b ≤ 0)

/-- JMP (43_branch.md section 2): with the flag true the next index is `max(0, opnd - 2) + 1`, the operand byte read
unsigned; with the flag false it is `pc + 1`; one tick either way, and registers, flag and `Out` stay. With the flag
unwritten under `FLAG_RESET = Unwritten` it raises `UninitializedFlag` (decision D3, log entry 3), and that fault leaves
all but the status (decision D10, log entry 18). The clamp for operands 0 and 1 is decision D7 (log entry 11). -/
def Obligations.JmpIsTakenWhenTheFlagIsSet : Prop :=
  ∀ (reg : RegIdx) (typ : TypeTag) (opnd : Byte) (s : State),
    encode (.jmp reg typ opnd) = encodeFields ⟨6, reg, typ, opnd⟩ ∧
    (s.flagHolds true → ∃ t, exec (.jmp reg typ opnd) s = .next t ∧ s.sameRegisters t ∧ s.sameFlag t ∧ t.out = s.out ∧
      s.completedTo t ((max 0 ((opnd.toNat : Int) - 2)).toNat + 1)) ∧
    (s.flagHolds false → ∃ t, exec (.jmp reg typ opnd) s = .next t ∧ s.sameRegisters t ∧ s.sameFlag t ∧ t.out = s.out ∧
      s.completedTo t (s.pc + 1)) ∧
    (s.flagUnreadable → raises (.jmp reg typ opnd) s .uninitializedFlag)

/-- JNP (43_branch.md section 2): as JMP with the condition inverted; the fault of an unwritten flag is decisions D3 and
D10 (log entries 3 and 18), the clamp for operands 0 and 1 decision D7 (log entry 11). -/
def Obligations.JnpIsTakenWhenTheFlagIsClear : Prop :=
  ∀ (reg : RegIdx) (typ : TypeTag) (opnd : Byte) (s : State),
    encode (.jnp reg typ opnd) = encodeFields ⟨7, reg, typ, opnd⟩ ∧
    (s.flagHolds false → ∃ t, exec (.jnp reg typ opnd) s = .next t ∧ s.sameRegisters t ∧ s.sameFlag t ∧ t.out = s.out ∧
      s.completedTo t ((max 0 ((opnd.toNat : Int) - 2)).toNat + 1)) ∧
    (s.flagHolds true → ∃ t, exec (.jnp reg typ opnd) s = .next t ∧ s.sameRegisters t ∧ s.sameFlag t ∧ t.out = s.out ∧
      s.completedTo t (s.pc + 1)) ∧
    (s.flagUnreadable → raises (.jnp reg typ opnd) s .uninitializedFlag)

/-- The landing of a taken branch (43_branch.md section 1; decision D7): operands 0, 1 and 2 land at index 1, an operand
from 2 on at one less than itself; no operand byte lands at 0 or beyond 254. -/
def Obligations.BranchLandings : Prop :=
  ∀ b : Byte,
    (b.toNat ≤ 2 → landing b.toNat = 1) ∧ (2 ≤ b.toNat → landing b.toNat = b.toNat - 1) ∧
    1 ≤ landing b.toNat ∧ landing b.toNat ≤ 254

/-- The rule EQL, CBP and CLP share, for `i`, its opcode and its signed relation (44_compare.md; decisions D2, D6,
D10, D11, D14, log entries 3, 12, 18, 17, 14): a type-1 comparand byte of 16 or more under `CMP_TYPE1 = Register` raises
`RegisterOutOfRange`; then an unreadable comparand, then an unreadable target raise `UninitializedRegister`; a fault
leaves all but the status; otherwise the flag takes the relation of the target to the comparand, and registers and
`Out` stay. -/
def Sys2Proof.Machine.ComparisonRule (i : Instr) (code : BitVec 4) (rel : Int → Int → Bool) (reg : RegIdx)
    (typ : TypeTag) (opnd : Byte) (s : State) : Prop :=
  encode i = encodeFields ⟨code, reg, typ, opnd⟩ ∧
  (s.comparesRegister typ → 16 ≤ opnd.toNat → raises i s .registerOutOfRange) ∧
  (s.comparesRegister typ → opnd.toNat < 16 → s.unreadable (BitVec.ofNat 4 opnd.toNat) →
    raises i s .uninitializedRegister) ∧
  (∀ b, s.comparandHolds typ opnd b → s.unreadable reg → raises i s .uninitializedRegister) ∧
  (∀ a b, s.comparandHolds typ opnd b → s.holds reg a →
    ∃ t, exec i s = .next t ∧ t.flag = rel a b ∧ t.flagWritten = true ∧ s.sameRegisters t ∧ t.out = s.out ∧
      s.completedTo t (s.pc + 1))

/-- EQL: the flag becomes target equal to comparand. -/
def Obligations.EqlSetsTheFlagOnEquality : Prop :=
  ∀ (reg : RegIdx) (typ : TypeTag) (opnd : Byte) (s : State),
    ComparisonRule (.eql reg typ opnd) 8 (fun a b => decide (a = b)) reg typ opnd s

/-- CBP: the flag becomes target greater than comparand. -/
def Obligations.CbpSetsTheFlagOnGreater : Prop :=
  ∀ (reg : RegIdx) (typ : TypeTag) (opnd : Byte) (s : State),
    ComparisonRule (.cbp reg typ opnd) 9 (fun a b => decide (b < a)) reg typ opnd s

/-- CLP: the flag becomes target less than comparand. -/
def Obligations.ClpSetsTheFlagOnLess : Prop :=
  ∀ (reg : RegIdx) (typ : TypeTag) (opnd : Byte) (s : State),
    ComparisonRule (.clp reg typ opnd) 10 (fun a b => decide (a < b)) reg typ opnd s

/-! ## Rules of the whole machine -/

/-- Every instruction, on every state, answers a next state: no meaning stops the machine by a host fault or a refusal. -/
def Obligations.EveryInstructionAnswersANextState : Prop :=
  ∀ (i : Instr) (s : State), ∃ t, exec i s = .next t

/-- Faults are precise (60_exceptions.md section 2; decision D10): an instruction run on a running machine that leaves a
fault record leaves the state before it, with the record naming its index and its word. -/
def Obligations.FaultsCommitNothing : Prop :=
  ∀ (i : Instr) (s t : State) (c : Cause) (p : Option Nat) (w : Option Word), s.status = .running →
    exec i s = .next t → t.status = .faulted c p w → t = s.faultedBy c (encode i)

/-- Which causes an instruction can raise (60_exceptions.md section 1; decisions D2, D3, D6, D14): those of the table, and
`UninitializedRegister` and `UninitializedFlag` only under the parameter value `Unwritten`. In particular PRT, JMP and
JNP never raise `RegisterOutOfRange`, and only DIV raises `DivideByZero`. -/
def Obligations.CausesPerInstruction : Prop :=
  ∀ (i : Instr) (s t : State) (c : Cause) (p : Option Nat) (w : Option Word), s.status = .running →
    exec i s = .next t → t.status = .faulted c p w →
    mayRaise s.params i c ∧ (c = .uninitializedRegister → s.params.regReset = .unwritten) ∧
      (c = .uninitializedFlag → s.params.flagReset = .unwritten)

/-- The flag's writers (10_state.md section 3; decision D1): every instruction but EQL, CBP and CLP leaves the flag and its
written state; one of those three, when it completes, leaves the flag written. -/
def Obligations.OnlyComparisonsWriteTheFlag : Prop :=
  ∀ (i : Instr) (s t : State), exec i s = .next t →
    (isComparison i = false → s.sameFlag t) ∧
    (isComparison i = true → s.status = .running → t.status.isFault = false → t.flagWritten = true)

/-- R32: a register write sets the register the register field names and no other, to a value of -128..127; PRT, JMP, JNP,
EQL, CBP and CLP write no register. -/
def Obligations.RegisterWritesStayInTheTarget : Prop :=
  (∀ (s : State) (r : RegIdx) (v : Int), InByteRange v → s.wroteOnly (s.writeReg r v) r v) ∧
  (∀ (i : Instr) (s t : State), exec i s = .next t →
    (writesRegister i = none → s.sameRegisters t) ∧
    (∀ r : RegIdx, writesRegister i = some r →
      (∀ q : RegIdx, q ≠ r → t.reg q = s.reg q ∧ t.regWritten q = s.regWritten q) ∧ InByteRange (t.reg r).toInt))

/-- The output stream (10_state.md section 5; decision D16): PRT appends at most one entry at the end and every other
instruction leaves the stream; entries are never removed or changed. -/
def Obligations.OnlyPrintAppends : Prop :=
  ∀ (i : Instr) (s t : State), exec i s = .next t →
    (isPrint i = false → t.out = s.out) ∧ (t.out = s.out ∨ ∃ v, t.out = s.out ++ [v])

/-- The program image is immutable and the parameters are fixed (20_memory.md sections 1 and 5, 10_state.md section 4): no
step changes a byte of the image, its length or a parameter. -/
def Obligations.StepsKeepProgramAndParameters : Prop :=
  ∀ s t : State, step s = .next t →
    t.program = s.program ∧ t.params = s.params ∧ ∀ a, t.program.readByte a = s.program.readByte a

/-- The program counter (10_state.md section 2; decision D7, log entry 11, for the clamp of operands 0 and 1): an
instruction that completes sets `pc` to `pc + 1`, but a taken JMP or JNP sets it to `max(0, opnd - 2) + 1`; and no
instruction reads `pc`: with another `pc` it leaves the same registers, flag, output and tick count, and the same
status, cause and word of a fault record included, but for the index in that record. -/
def Obligations.PcFollowsSequenceOrLanding : Prop :=
  (∀ (i : Instr) (s t : State), s.status = .running → exec i s = .next t → t.status.isFault = false →
    (∀ u, takenOperand s i = some u → t.pc = (max 0 ((u : Int) - 2)).toNat + 1) ∧
    (takenOperand s i = none → t.pc = s.pc + 1)) ∧
  (∀ (i : Instr) (s t u : State) (n : Nat), exec i s = .next t → exec i { s with pc := n } = .next u →
    t.sameRegisters u ∧ t.sameFlag u ∧ u.out = t.out ∧ u.tick = t.tick ∧
      u.status.eraseIndex = t.status.eraseIndex)

/-- The tick counter (10_state.md section 4, 60_exceptions.md section 5; decisions D10, D13): it counts one for every
instruction that completes and none for one that faults, and no instruction reads it: with another count it leaves the
same registers, flag, output and `pc`. -/
def Obligations.TickCountsCompletions : Prop :=
  (∀ (i : Instr) (s t : State), s.status = .running → exec i s = .next t →
    (t.status.isFault = false → t.tick = s.tick + 1) ∧ (t.status.isFault = true → t.tick = s.tick)) ∧
  (∀ (i : Instr) (s t u : State) (n : Nat), exec i s = .next t → exec i { s with tick := n } = .next u →
    t.sameRegisters u ∧ t.sameFlag u ∧ u.out = t.out ∧ u.pc = t.pc)

/-- The tick limit (40_execution_cycle.md section 2; decision D12): an instruction that completes leaves the machine halted
exactly when the new count is greater than the limit, and running otherwise. -/
def Obligations.TickLimitHaltsAfterCompletion : Prop :=
  ∀ (i : Instr) (s t : State), s.status = .running → exec i s = .next t → t.status.isFault = false →
    (t.status = .halted ↔ ∃ l, s.params.tickLimit = some l ∧ l < s.tick + 1) ∧
    (t.status = .running ↔ ∀ l, s.params.tickLimit = some l → s.tick + 1 ≤ l)

/-- Written bits rise and stay (10_state.md section 1; decisions D2, D3): no step clears a written bit of a register or the
flag's. -/
def Obligations.WrittenBitsStaySet : Prop :=
  ∀ s t : State, step s = .next t →
    (∀ r : RegIdx, s.regWritten r = true → t.regWritten r = true) ∧ (s.flagWritten = true → t.flagWritten = true)

/-- Ignored fields have no effect (30_encoding.md sections 5 and 6; decisions D6, D14, D27), the word in a fault record
apart: PRT ignores the register field unless its type is 2 and the operand unless it is 0; types 0, 2 and 3 of SET and
of the arithmetic are one; JMP and JNP ignore register and type; comparisons ignore the type under
`CMP_TYPE1 = Literal`, and of types 0, 2 and 3 always. -/
def Obligations.IgnoredFieldsHaveNoEffect : Prop :=
  ∀ (r r' : RegIdx) (t t' : TypeTag) (n n' : Byte) (s : State),
    sameEffect (.prt r 0#2 n) (.prt r' 0#2 n) s ∧
    sameEffect (.prt r 2#2 n) (.prt r 2#2 n') s ∧
    sameEffect (.prt r 1#2 n) (.prt r' 1#2 n') s ∧
    sameEffect (.prt r 1#2 n) (.prt r' 3#2 n') s ∧
    sameEffect (.jmp r t n) (.jmp r' t' n) s ∧
    sameEffect (.jnp r t n) (.jnp r' t' n) s ∧
    (t ≠ 1#2 → t' ≠ 1#2 →
      sameEffect (.set r t n) (.set r t' n) s ∧ sameEffect (.add r t n) (.add r t' n) s ∧
      sameEffect (.sub r t n) (.sub r t' n) s ∧ sameEffect (.mul r t n) (.mul r t' n) s ∧
      sameEffect (.div r t n) (.div r t' n) s) ∧
    (s.params.cmpType1 = .literal ∨ (t ≠ 1#2 ∧ t' ≠ 1#2) →
      sameEffect (.eql r t n) (.eql r t' n) s ∧ sameEffect (.cbp r t n) (.cbp r t' n) s ∧
      sameEffect (.clp r t n) (.clp r t' n) s)

/-! ## The invariant, runs, and what cannot be seen -/

/-- The reset state satisfies the invariant. -/
def Obligations.ResetSatisfiesTheInvariant : Prop := State.reset.Inv

/-- Every constructed machine satisfies the invariant, the one with a malformed artifact too. Of that one the spec gives
the status only; that its `pc`, tick count, output and image are the reset values is the model's choice (log entry 8). -/
def Obligations.ConstructionSatisfiesTheInvariant : Prop :=
  ∀ (p : Params) (artifact : List Byte), (State.construct p artifact).Inv

/-- Every step keeps the invariant, from every state that satisfies it. -/
def Obligations.StepsKeepTheInvariant : Prop := ∀ s t : State, s.Inv → step s = .next t → t.Inv

/-- Every state of every run of every program under every choice of parameters satisfies the invariant: outputs are in
range, the image canonical, `pc` at most `max(n, 254)`, the tick count within the limit plus one, a halt has one of
its two reasons, and a fault record names the instruction at `pc`. For malformed artifacts it rests on the model's
choice of the state beside the status (log entry 8). -/
def Obligations.RunsStayInTheInvariant : Prop :=
  ∀ (p : Params) (artifact : List Byte) (k : Nat), ((State.construct p artifact).runFor k).Inv

/-- The tick limit bounds every run (40_execution_cycle.md section 2, 70_reset_and_hazards.md section 4; decision D12): with
limit `l`, any machine is no longer running after `l + 1` steps, and at most `l + 1` instructions have completed. -/
def Obligations.LimitedRunsEnd : Prop :=
  ∀ (p : Params) (artifact : List Byte) (l k : Nat), p.tickLimit = some l →
    ((State.construct p artifact).runFor (l + 1)).status ≠ .running ∧
    ((State.construct p artifact).runFor k).tick ≤ l + 1

/-- A run need not end (40_execution_cycle.md section 3, 70_reset_and_hazards.md section 4): with no tick limit there is a
program that is still running after every number of steps, each of them a completed instruction. -/
def Obligations.EndlessRunsAreKept : Prop :=
  ∃ artifact : List Byte, artifact.length % 4 = 0 ∧
    ∀ k : Nat, ((State.construct ⟨.unwritten, .unwritten, .literal, none⟩ artifact).runFor k).status = .running ∧
      ((State.construct ⟨.unwritten, .unwritten, .literal, none⟩ artifact).runFor k).tick = k

/-- The bits behind an unwritten register and an unwritten flag cannot be seen: two states that differ at most in them take
steps of one kind to states that differ at most in them. So the values the model chose at reset (log entry 2) reach no
outcome, under any parameters. -/
def Obligations.UnwrittenBitsAreNeverSeen : Prop :=
  ∀ s t : State, s.AgreeWhereWritten t → OutcomesAgree (step s) (step t)

/-! ## The toolchain's contract with the machine -/

/-- The label offset contract (43_branch.md section 3, 30_encoding.md section 7; decision D7, log entry 11; decision D19, log
entry 22). In this order: a reference inside a line becomes the decimal of its table entry plus one, the rest of the
line being resolved in its turn, and a reference to no entry is `UnknownLabel`; the table entry of a label line is the
number of instruction lines before it; so, end to end, in an assembled text a retained `JMP` or `JNP` line that names
the label has as its word the short form with operand byte `k + 1`, `k` the number of instruction lines before the
label, and that byte lands at `k`, but at 1 for `k = 0`; the decimal `k + 1` assembles for every `k` up to 126, and
from 127 on it is `OperandOutOfRange`. -/
def Obligations.LabelOffsetContract : Prop :=
  (∀ (table : Asm.LabelTable) (pre name suf : Asm.Chars), '#' ∉ pre → name ≠ [] → name.all Asm.isWordChar = true →
    (∀ c, suf.head? = some c → Asm.isWordChar c = false) →
    (∀ k, table.lookup name = some k →
      Asm.substitute table (pre ++ '#' :: (name ++ suf)) none =
        (Asm.substitute table suf none).map fun rest => pre ++ (Nat.toDigits 10 (k + 1) ++ rest)) ∧
    (table.lookup name = none →
      Asm.substitute table (pre ++ '#' :: (name ++ suf)) none = .error .unknownLabel)) ∧
  (∀ (before after : List Asm.Chars) (name : Asm.Chars) (table : Asm.LabelTable) (kept : List Asm.Chars),
    Asm.collect (before ++ ('#' :: name) :: after) 0 [] = .ok (table, kept) →
    table.lookup name = some (Asm.retained before).length ∧ kept = Asm.retained before ++ Asm.retained after) ∧
  (∀ (before after : List Asm.Chars) (name : Asm.Chars) (ws : List Word) (j : Nat),
    Asm.assembleWords (before ++ ('#' :: name) :: after) = .ok ws →
    ((Asm.retained before ++ Asm.retained after)[j]? = some ("JMP #".toList ++ name) →
      (Asm.retained before).length ≤ 126 ∧
      ∃ n : Byte, ws[j]? = some (encode (.jmp 0 0 n)) ∧ n.toNat = (Asm.retained before).length + 1 ∧
        landing n.toNat = max (Asm.retained before).length 1) ∧
    ((Asm.retained before ++ Asm.retained after)[j]? = some ("JNP #".toList ++ name) →
      (Asm.retained before).length ≤ 126 ∧
      ∃ n : Byte, ws[j]? = some (encode (.jnp 0 0 n)) ∧ n.toNat = (Asm.retained before).length + 1 ∧
        landing n.toNat = max (Asm.retained before).length 1)) ∧
  (∀ k : Nat, k ≤ 126 → ∃ n : Byte,
    Asm.encodeTokens ["JMP".toList, Nat.toDigits 10 (k + 1)] = .ok (encode (.jmp 0 0 n)) ∧
    Asm.encodeTokens ["JNP".toList, Nat.toDigits 10 (k + 1)] = .ok (encode (.jnp 0 0 n)) ∧
    n.toNat = k + 1 ∧ landing n.toNat = max k 1) ∧
  (∀ k : Nat, 127 ≤ k →
    Asm.encodeTokens ["JMP".toList, Nat.toDigits 10 (k + 1)] = .error .operandOutOfRange ∧
    Asm.encodeTokens ["JNP".toList, Nat.toDigits 10 (k + 1)] = .error .operandOutOfRange)

/-- What the assembler emits (30_encoding.md section 7, its last rule): whatever text it accepts, the artifact loads, and
every word of it is an instruction whose operand byte is not 0x80 (that rests on decisions D19 and D24, log entry 22:
every literal goes through `smenc`, and `-0` is 0). So `MalformedWord` and `IllegalOpcode` never come from assembled
words. -/
def Obligations.AssembledWordsAreInstructions : Prop :=
  ∀ (lines : List String) (artifact : List Byte), Asm.assemble lines = .ok artifact →
    artifact.length % 4 = 0 ∧
    ∀ k w, (ProgramImage.ofBytes artifact).fetch k = some w →
      ∃ i, decodeWord w = .ok i ∧ i.toFields.opnd ≠ 0x80#8

/-- The short forms are full forms (30_encoding.md section 7; decision D23, log entry 22): for every mnemonic and all
tokens, errors included, `JMP t`, `JNP t` and `PRT N` are the full form with `$0 0`, `PRT $x` with `2 0`, `OP $r N` with
type 0, and `OP $r $s` with type 1 and the decimal index of `$s`; its word has that index as operand. A `$`-token that
is no register name makes `OP $r $s` an `UnknownRegister` error, as one in the first place does. -/
def Obligations.ShortFormsAreFullForms : Prop :=
  (∀ t : Asm.Chars,
    Asm.encodeTokens ["JMP".toList, t] = Asm.encodeTokens ["JMP".toList, "$0".toList, "0".toList, t] ∧
    Asm.encodeTokens ["JNP".toList, t] = Asm.encodeTokens ["JNP".toList, "$0".toList, "0".toList, t]) ∧
  (∀ t : Asm.Chars, Asm.isRegisterRef t = false →
    Asm.encodeTokens ["PRT".toList, t] = Asm.encodeTokens ["PRT".toList, "$0".toList, "0".toList, t]) ∧
  (∀ t : Asm.Chars, Asm.isRegisterRef t = true →
    Asm.encodeTokens ["PRT".toList, t] = Asm.encodeTokens ["PRT".toList, t, "2".toList, "0".toList]) ∧
  (∀ m ∈ ["SET".toList, "ADD".toList, "SUB".toList, "MUL".toList, "DIV".toList, "EQL".toList, "CBP".toList,
      "CLP".toList], ∀ r t : Asm.Chars,
    (Asm.isRegisterRef t = false → Asm.encodeTokens [m, r, t] = Asm.encodeTokens [m, r, "0".toList, t]) ∧
    (∀ si : RegIdx, Asm.register? t = some si →
      Asm.encodeTokens [m, r, t] = Asm.encodeTokens [m, r, "1".toList, Nat.toDigits 10 si.toNat]) ∧
    (∀ (ri si : RegIdx) (op : BitVec 4), Asm.register? r = some ri → Asm.register? t = some si →
      Asm.mnemonics.lookup m = some op →
      Asm.encodeTokens [m, r, t] = .ok (encodeFields ⟨op, ri, 1, BitVec.ofNat 8 si.toNat⟩)) ∧
    (Asm.isRegisterRef t = true → Asm.register? t = none →
      Asm.encodeTokens [m, r, t] = .error .unknownRegister) ∧
    (Asm.register? r = none → Asm.encodeTokens [m, r, t] = .error .unknownRegister))
end

