-- ==== Sys2Proof/Laws/Assembler.lean ====
section
/-! SUPPORT. What each pass of the assembler does: decimals read back as the number they spell, a line without
references stays, a reference is replaced in its place, the classification pass counts instruction lines, and the
later passes work line by line. -/

namespace Sys2Proof.Asm

/-! ## Decimals -/

/-- A character of a decimal is a digit. -/
theorem digit?_of_isDigit {c : Char} (h : c.isDigit = true) : digit? c = some (c.toNat - '0'.toNat) := by
  have h2 : '0' ≤ c ∧ c ≤ '9' := by
    simpa [Char.isDigit, Char.le_def, UInt32.le_iff_toNat_le] using h
  simp [digit?, h2]

/-- A run of digits spells the number its digits give. -/
theorem digits?_of_isDigit (cs : Chars) (acc : Nat) (h : ∀ c ∈ cs, c.isDigit = true) :
    digits? cs acc = some (Nat.ofDigitChars 10 cs acc) := by
  induction cs generalizing acc with
  | nil => rfl
  | cons c cs ih =>
    simp only [digits?, digit?_of_isDigit (h c (by simp))]
    exact ih _ fun d hd => h d (by simp [hd])

/-- Every character of the decimal of `n` is a digit. -/
theorem isDigit_of_mem_decimal {n : Nat} {c : Char} (h : c ∈ Nat.toDigits 10 n) : c.isDigit = true :=
  Nat.isDigit_of_mem_toDigits (by decide) (by decide) h

/-- The decimal of `n` is a literal that spells `n`. -/
theorem literal?_decimal (n : Nat) : literal? (Nat.toDigits 10 n) = some (n : Int) := by
  have hd : digits? (Nat.toDigits 10 n) 0 = some n := by
    rw [digits?_of_isDigit _ _ fun _ => isDigit_of_mem_decimal,
      Nat.ofDigitChars_toDigits (by decide) (by decide)]
  have hm : ∀ c ∈ Nat.toDigits 10 n, c ≠ '-' := by
    rintro c h rfl
    exact absurd (isDigit_of_mem_decimal h) (by decide)
  cases hl : Nat.toDigits 10 n with
  | nil => exact absurd hl Nat.toDigits_ne_nil
  | cons c cs =>
    rw [hl] at hd hm
    have hc : c ≠ '-' := hm c (by simp)
    simp [literal?, hc, hd]

/-! ## Substitution -/

/-- Text without `#` before the rest of a line stays as it is. -/
theorem substitute_plain (t : LabelTable) (pre rest : Chars) (h : '#' ∉ pre) :
    substitute t (pre ++ rest) none = (substitute t rest none).map (pre ++ ·) := by
  induction pre with
  | nil => cases hr : substitute t rest none <;> simp [hr, Except.map]
  | cons c cs ih =>
    have hc : c ≠ '#' := by rintro rfl; simp at h
    have hcs : '#' ∉ cs := fun hm => h (by simp [hm])
    simp only [List.cons_append, substitute, hc, if_false, ih hcs]
    cases substitute t rest none <;> rfl

/-- The word characters of a reference are all read as its name. -/
theorem substitute_name (t : LabelTable) (name rest q : Chars) (h : name.all isWordChar = true) :
    substitute t (name ++ rest) (some q) = substitute t rest (some (name.reverse ++ q)) := by
  induction name generalizing q with
  | nil => rfl
  | cons c cs ih =>
    simp only [List.all_cons, Bool.and_eq_true] at h
    simp [substitute, h.1, ih (c :: q) h.2]

/-- At the end of a name its reference is resolved and the rest of the line in its turn. -/
theorem substitute_flush (t : LabelTable) (suf q : Chars) (h : ∀ c, suf.head? = some c → isWordChar c = false) :
    substitute t suf (some q) =
      (flushRef t q).bind fun r => (substitute t suf none).map (r ++ ·) := by
  cases suf with
  | nil => cases hf : flushRef t q <;> simp [substitute, hf, Except.bind, Except.map]
  | cons c cs =>
    have hc := h c rfl
    by_cases he : c = '#'
    · subst he
      simp only [substitute, hc, if_true]
      cases flushRef t q <;> simp [bind, Except.bind, Except.map, pure, Except.pure]
    · simp only [substitute, hc, he, if_false]
      cases flushRef t q <;> simp [bind, Except.bind, Except.map, pure, Except.pure]
      cases substitute t cs none <;> rfl

/-- A reference inside a line: the text before it stays, it is resolved, then the rest of the line. -/
theorem substitute_reference (t : LabelTable) {pre name suf : Chars} (hp : '#' ∉ pre)
    (hw : name.all isWordChar = true) (hs : ∀ c, suf.head? = some c → isWordChar c = false) :
    substitute t (pre ++ '#' :: (name ++ suf)) none =
      (flushRef t name.reverse).bind fun r => (substitute t suf none).map fun rest => pre ++ (r ++ rest) := by
  rw [substitute_plain t pre _ hp]
  simp only [substitute, if_true, substitute_name t name suf [] hw, List.append_nil, substitute_flush t suf _ hs]
  cases flushRef t name.reverse with
  | error e => rfl
  | ok r => cases substitute t suf none <;> rfl

/-- A name of the table is resolved to its count plus one. -/
theorem flushRef_known {t : LabelTable} {name : Chars} {k : Nat} (hn : name ≠ []) (h : t.lookup name = some k) :
    flushRef t name.reverse = .ok (Nat.toDigits 10 (k + 1)) := by
  simp [flushRef, hn, h]

/-- A name that is not in the table is an unknown label. -/
theorem flushRef_unknown {t : LabelTable} {name : Chars} (hn : name ≠ []) (h : t.lookup name = none) :
    flushRef t name.reverse = .error .unknownLabel := by
  simp [flushRef, hn, h]

/-! ## Classification -/

@[simp] theorem retained_nil : retained [] = [] := rfl

/-- What one accepted line does: nothing, a new label at the count so far, or an instruction that is kept. -/
theorem collect_cons {l : Chars} {ls : List Chars} {k : Nat} {t : LabelTable} {r : LabelTable × List Chars}
    (h : collect (l :: ls) k t = .ok r) :
    (classify l = .dropped ∧ collect ls k t = .ok r) ∨
    (∃ n, classify l = .label n ∧ t.lookup n = none ∧ collect ls k ((n, k) :: t) = .ok r) ∨
    (classify l = .instruction ∧ ∃ kept, collect ls (k + 1) t = .ok (r.1, kept) ∧ r.2 = l :: kept) := by
  unfold collect at h
  cases hc : classify l with
  | dropped => rw [hc] at h; exact .inl ⟨rfl, h⟩
  | badLabel => rw [hc] at h; cases h
  | label n =>
    rw [hc] at h
    cases hl : t.lookup n with
    | none => simp only [hl] at h; exact .inr (.inl ⟨n, rfl, hl, h⟩)
    | some j => simp only [hl] at h; cases h
  | instruction =>
    rw [hc] at h
    cases hr : collect ls (k + 1) t with
    | error e => simp only [hr] at h; cases h
    | ok p => simp only [hr] at h; cases h; exact .inr (.inr ⟨rfl, p.2, rfl, rfl⟩)

/-- The pass keeps the instruction lines and nothing else. -/
theorem collect_kept {ls : List Chars} {k : Nat} {t : LabelTable} {r : LabelTable × List Chars}
    (h : collect ls k t = .ok r) : r.2 = retained ls := by
  induction ls generalizing k t r with
  | nil => cases h; rfl
  | cons l ls ih =>
    rcases collect_cons h with ⟨hc, h⟩ | ⟨n, hc, _, h⟩ | ⟨hc, kept, h, hr⟩
    · simpa [retained, hc] using ih h
    · simpa [retained, hc] using ih h
    · have := ih h
      simp only at this
      simp [retained, hc, hr, this]

/-- A label once bound keeps its count. -/
theorem collect_keeps {ls : List Chars} {k : Nat} {t : LabelTable} {r : LabelTable × List Chars} {n : Chars} {j : Nat}
    (h : collect ls k t = .ok r) (hn : t.lookup n = some j) : r.1.lookup n = some j := by
  induction ls generalizing k t r with
  | nil => cases h; exact hn
  | cons l ls ih =>
    rcases collect_cons h with ⟨_, h⟩ | ⟨m, _, hm, h⟩ | ⟨_, kept, h, _⟩
    · exact ih h hn
    · refine ih h ?_
      have hne : n ≠ m := by rintro rfl; rw [hm] at hn; cases hn
      simpa [List.lookup_cons, beq_false_of_ne hne] using hn
    · exact ih (r := (r.1, kept)) h hn

/-- A line that opens with `#` is a well-formed label definition or a malformed one. -/
theorem classify_hash (name : Chars) :
    (classify ('#' :: name) = .label name ∧ name ≠ [] ∧ name.all isWordChar = true) ∨
      classify ('#' :: name) = .badLabel := by
  have he : classify ('#' :: name) =
      if name ≠ [] ∧ name.all isWordChar = true then LineKind.label name else LineKind.badLabel := rfl
  rw [he]
  split
  · exact .inl ⟨rfl, ‹_›⟩
  · exact .inr rfl

/-- A label definition is not retained. -/
theorem retained_label (before after : List Chars) (name : Chars) :
    retained (before ++ ('#' :: name) :: after) = retained before ++ retained after := by
  rcases classify_hash name with ⟨h, _⟩ | h <;> simp [retained, h]

/-- An accepted label line has a well-formed name and binds it to the count of instruction lines before it. -/
theorem collect_label {before after : List Chars} {name : Chars} {k : Nat} {t : LabelTable}
    {r : LabelTable × List Chars} (h : collect (before ++ ('#' :: name) :: after) k t = .ok r) :
    (name ≠ [] ∧ name.all isWordChar = true) ∧ r.1.lookup name = some (k + (retained before).length) := by
  induction before generalizing k t r with
  | nil =>
    rcases collect_cons h with ⟨hk, _⟩ | ⟨n, hk, _, hrest⟩ | ⟨hk, _⟩
    · rcases classify_hash name with ⟨hc, _⟩ | hc <;> rw [hk] at hc <;> cases hc
    · rcases classify_hash name with ⟨hc, hn⟩ | hc
      · rw [hk] at hc
        cases hc
        exact ⟨hn, collect_keeps hrest (by simp)⟩
      · rw [hk] at hc; cases hc
    · rcases classify_hash name with ⟨hc, _⟩ | hc <;> rw [hk] at hc <;> cases hc
  | cons l ls ih =>
    rcases collect_cons h with ⟨hc, hrest⟩ | ⟨n, hc, _, hrest⟩ | ⟨hc, kept, hrest, _⟩
    · simpa [retained, hc] using ih hrest
    · simpa [retained, hc] using ih hrest
    · obtain ⟨hn, hl⟩ := ih hrest
      refine ⟨hn, ?_⟩
      simp only at hl
      simp only [hl, retained, List.filter_cons, hc, decide_true, if_true, List.length_cons]
      congr 1
      omega

/-! ## The later passes, line by line -/

/-- A bind that succeeds is two successes. -/
theorem bind_ok {ε α β : Type} {x : Except ε α} {g : α → Except ε β} {w : β} (h : x.bind g = .ok w) :
    ∃ a, x = .ok a ∧ g a = .ok w := by
  cases x with
  | error e => cases h
  | ok a => exact ⟨a, rfl, h⟩

/-- Naming a line changes no success. -/
theorem atLine_ok {α : Type} {l : Chars} {x : Except AsmError α} {a : α} (h : atLine l x = .ok a) : x = .ok a := by
  cases x with
  | error e => cases h
  | ok b => cases h; rfl

/-- The substitution pass resolves each line by itself. -/
theorem resolveAll_ok {t : LabelTable} {ls : List Chars} {rs : List (Chars × Chars)} (h : resolveAll t ls = .ok rs) :
    rs.length = ls.length ∧
      ∀ (j : Nat) (l : Chars), ls[j]? = some l → ∃ r, rs[j]? = some (l, r) ∧ substitute t l none = .ok r := by
  induction ls generalizing rs with
  | nil => cases h; simp
  | cons l ls ih =>
    obtain ⟨r, hr, h⟩ := bind_ok h
    obtain ⟨rs', hrs, h⟩ := bind_ok h
    cases h
    refine ⟨by simp [(ih hrs).1], fun j l' hj => ?_⟩
    cases j with
    | zero => simp at hj; subst hj; exact ⟨r, rfl, atLine_ok hr⟩
    | succ j => simpa using (ih hrs).2 j l' (by simpa using hj)

/-- The encoding pass encodes each resolved line by itself. -/
theorem encodeAll_ok {rs : List (Chars × Chars)} {ws : List Word} (h : encodeAll rs = .ok ws) :
    ws.length = rs.length ∧
      ∀ (j : Nat) (l r : Chars), rs[j]? = some (l, r) → ∃ w, ws[j]? = some w ∧ encodeTokens (splitSpaces r) = .ok w := by
  induction rs generalizing ws with
  | nil => cases h; simp
  | cons p rs ih =>
    obtain ⟨l, r⟩ := p
    obtain ⟨w, hw, h⟩ := bind_ok h
    obtain ⟨ws', hws, h⟩ := bind_ok h
    cases h
    refine ⟨by simp [(ih hws).1], fun j l' r' hj => ?_⟩
    cases j with
    | zero => simp at hj; obtain ⟨rfl, rfl⟩ := hj; exact ⟨w, rfl, atLine_ok hw⟩
    | succ j => simpa using (ih hws).2 j l' r' (by simpa using hj)

/-- An accepted text is encoded line by line: the word of each retained line is that of its resolved tokens. -/
theorem assembleWords_ok {lines : List Chars} {ws : List Word} (h : assembleWords lines = .ok ws) :
    ∃ table, collect lines 0 [] = .ok (table, retained lines) ∧ ws.length = (retained lines).length ∧
      ∀ (j : Nat) (l : Chars), (retained lines)[j]? = some l →
        ∃ r w, substitute table l none = .ok r ∧ encodeTokens (splitSpaces r) = .ok w ∧ ws[j]? = some w := by
  obtain ⟨⟨table, kept⟩, hc, hrest⟩ := bind_ok h
  obtain ⟨rs, hrs, henc⟩ := bind_ok hrest
  have hk : kept = retained lines := collect_kept hc
  subst hk
  refine ⟨table, hc, (encodeAll_ok henc).1.trans (resolveAll_ok hrs).1, fun j l hj => ?_⟩
  obtain ⟨r, hr, hs⟩ := (resolveAll_ok hrs).2 j l hj
  obtain ⟨w, hw, he⟩ := (encodeAll_ok henc).2 j l r hr
  exact ⟨r, w, hs, he, hw⟩

/-- Text without spaces is one token. -/
theorem splitSpaces_plain (cs : Chars) (h : ' ' ∉ cs) : splitSpaces cs = [cs] := by
  induction cs with
  | nil => rfl
  | cons c cs ih =>
    have hc : c ≠ ' ' := by rintro rfl; simp at h
    simp [splitSpaces, ih fun hm => h (by simp [hm]), hc]

end Sys2Proof.Asm
end

