-- ==== Sys2Proof/Laws/State.lean ====
section
/-! SUPPORT. One lemma per field per update of State, each true by rfl, so that no proof unfolds a record update. -/

namespace Sys2Proof.Machine

variable (s : State)

/-! ### State.writeReg -/

@[simp] theorem State.writeReg_regs (r : RegIdx) (v : Int) :
    (s.writeReg r v).regs =
      s.regs.set r.toNat (BitVec.ofInt 8 v) r.isLt := rfl
@[simp] theorem State.writeReg_written (r : RegIdx) (v : Int) :
    (s.writeReg r v).written =
      s.written.set r.toNat true r.isLt := rfl
@[simp] theorem State.writeReg_pc (r : RegIdx) (v : Int) : (s.writeReg r v).pc = s.pc := rfl
@[simp] theorem State.writeReg_flag (r : RegIdx) (v : Int) : (s.writeReg r v).flag = s.flag := rfl
@[simp] theorem State.writeReg_flagWritten (r : RegIdx) (v : Int) :
    (s.writeReg r v).flagWritten =
      s.flagWritten := rfl
@[simp] theorem State.writeReg_tick (r : RegIdx) (v : Int) : (s.writeReg r v).tick = s.tick := rfl
@[simp] theorem State.writeReg_out (r : RegIdx) (v : Int) : (s.writeReg r v).out = s.out := rfl
@[simp] theorem State.writeReg_status (r : RegIdx) (v : Int) : (s.writeReg r v).status = s.status := rfl
@[simp] theorem State.writeReg_program (r : RegIdx) (v : Int) : (s.writeReg r v).program = s.program := rfl
@[simp] theorem State.writeReg_params (r : RegIdx) (v : Int) : (s.writeReg r v).params = s.params := rfl

/-! ### State.setFlag -/

@[simp] theorem State.setFlag_regs (b : Bool) : (s.setFlag b).regs = s.regs := rfl
@[simp] theorem State.setFlag_written (b : Bool) : (s.setFlag b).written = s.written := rfl
@[simp] theorem State.setFlag_pc (b : Bool) : (s.setFlag b).pc = s.pc := rfl
@[simp] theorem State.setFlag_flag (b : Bool) : (s.setFlag b).flag = b := rfl
@[simp] theorem State.setFlag_flagWritten (b : Bool) : (s.setFlag b).flagWritten = true := rfl
@[simp] theorem State.setFlag_tick (b : Bool) : (s.setFlag b).tick = s.tick := rfl
@[simp] theorem State.setFlag_out (b : Bool) : (s.setFlag b).out = s.out := rfl
@[simp] theorem State.setFlag_status (b : Bool) : (s.setFlag b).status = s.status := rfl
@[simp] theorem State.setFlag_program (b : Bool) : (s.setFlag b).program = s.program := rfl
@[simp] theorem State.setFlag_params (b : Bool) : (s.setFlag b).params = s.params := rfl

/-! ### State.appendOut -/

@[simp] theorem State.appendOut_regs (v : Int) : (s.appendOut v).regs = s.regs := rfl
@[simp] theorem State.appendOut_written (v : Int) : (s.appendOut v).written = s.written := rfl
@[simp] theorem State.appendOut_pc (v : Int) : (s.appendOut v).pc = s.pc := rfl
@[simp] theorem State.appendOut_flag (v : Int) : (s.appendOut v).flag = s.flag := rfl
@[simp] theorem State.appendOut_flagWritten (v : Int) : (s.appendOut v).flagWritten = s.flagWritten := rfl
@[simp] theorem State.appendOut_tick (v : Int) : (s.appendOut v).tick = s.tick := rfl
@[simp] theorem State.appendOut_out (v : Int) : (s.appendOut v).out = s.out ++ [v] := rfl
@[simp] theorem State.appendOut_status (v : Int) : (s.appendOut v).status = s.status := rfl
@[simp] theorem State.appendOut_program (v : Int) : (s.appendOut v).program = s.program := rfl
@[simp] theorem State.appendOut_params (v : Int) : (s.appendOut v).params = s.params := rfl

/-! ### State.setPc -/

@[simp] theorem State.setPc_regs (n : Nat) : (s.setPc n).regs = s.regs := rfl
@[simp] theorem State.setPc_written (n : Nat) : (s.setPc n).written = s.written := rfl
@[simp] theorem State.setPc_pc (n : Nat) : (s.setPc n).pc = n := rfl
@[simp] theorem State.setPc_flag (n : Nat) : (s.setPc n).flag = s.flag := rfl
@[simp] theorem State.setPc_flagWritten (n : Nat) : (s.setPc n).flagWritten = s.flagWritten := rfl
@[simp] theorem State.setPc_tick (n : Nat) : (s.setPc n).tick = s.tick := rfl
@[simp] theorem State.setPc_out (n : Nat) : (s.setPc n).out = s.out := rfl
@[simp] theorem State.setPc_status (n : Nat) : (s.setPc n).status = s.status := rfl
@[simp] theorem State.setPc_program (n : Nat) : (s.setPc n).program = s.program := rfl
@[simp] theorem State.setPc_params (n : Nat) : (s.setPc n).params = s.params := rfl

/-! ### State.advance -/

@[simp] theorem State.advance_regs : s.advance.regs = s.regs := rfl
@[simp] theorem State.advance_written : s.advance.written = s.written := rfl
@[simp] theorem State.advance_pc : s.advance.pc = s.pc + 1 := rfl
@[simp] theorem State.advance_flag : s.advance.flag = s.flag := rfl
@[simp] theorem State.advance_flagWritten : s.advance.flagWritten = s.flagWritten := rfl
@[simp] theorem State.advance_tick : s.advance.tick = s.tick := rfl
@[simp] theorem State.advance_out : s.advance.out = s.out := rfl
@[simp] theorem State.advance_status : s.advance.status = s.status := rfl
@[simp] theorem State.advance_program : s.advance.program = s.program := rfl
@[simp] theorem State.advance_params : s.advance.params = s.params := rfl

/-! ### State.complete -/

@[simp] theorem State.complete_regs : s.complete.regs = s.regs := rfl
@[simp] theorem State.complete_written : s.complete.written = s.written := rfl
@[simp] theorem State.complete_pc : s.complete.pc = s.pc := rfl
@[simp] theorem State.complete_flag : s.complete.flag = s.flag := rfl
@[simp] theorem State.complete_flagWritten : s.complete.flagWritten = s.flagWritten := rfl
@[simp] theorem State.complete_tick : s.complete.tick = s.tick + 1 := rfl
@[simp] theorem State.complete_out : s.complete.out = s.out := rfl
@[simp] theorem State.complete_status :
    s.complete.status =
      if tickLimitExceeded s.params.tickLimit (s.tick + 1) then .halted else s.status := rfl
@[simp] theorem State.complete_program : s.complete.program = s.program := rfl
@[simp] theorem State.complete_params : s.complete.params = s.params := rfl

/-! ### State.raise -/

@[simp] theorem State.raise_regs (c : Cause) (w : Word) : (s.raise c w).regs = s.regs := rfl
@[simp] theorem State.raise_written (c : Cause) (w : Word) : (s.raise c w).written = s.written := rfl
@[simp] theorem State.raise_pc (c : Cause) (w : Word) : (s.raise c w).pc = s.pc := rfl
@[simp] theorem State.raise_flag (c : Cause) (w : Word) : (s.raise c w).flag = s.flag := rfl
@[simp] theorem State.raise_flagWritten (c : Cause) (w : Word) : (s.raise c w).flagWritten = s.flagWritten := rfl
@[simp] theorem State.raise_tick (c : Cause) (w : Word) : (s.raise c w).tick = s.tick := rfl
@[simp] theorem State.raise_out (c : Cause) (w : Word) : (s.raise c w).out = s.out := rfl
@[simp] theorem State.raise_status (c : Cause) (w : Word) :
    (s.raise c w).status =
      .faulted c (some s.pc) (some w) := rfl
@[simp] theorem State.raise_program (c : Cause) (w : Word) : (s.raise c w).program = s.program := rfl
@[simp] theorem State.raise_params (c : Cause) (w : Word) : (s.raise c w).params = s.params := rfl

/-! ### State.halt -/

@[simp] theorem State.halt_regs : s.halt.regs = s.regs := rfl
@[simp] theorem State.halt_written : s.halt.written = s.written := rfl
@[simp] theorem State.halt_pc : s.halt.pc = s.pc := rfl
@[simp] theorem State.halt_flag : s.halt.flag = s.flag := rfl
@[simp] theorem State.halt_flagWritten : s.halt.flagWritten = s.flagWritten := rfl
@[simp] theorem State.halt_tick : s.halt.tick = s.tick := rfl
@[simp] theorem State.halt_out : s.halt.out = s.out := rfl
@[simp] theorem State.halt_status : s.halt.status = .halted := rfl
@[simp] theorem State.halt_program : s.halt.program = s.program := rfl
@[simp] theorem State.halt_params : s.halt.params = s.params := rfl

/-! ### State.emit -/

@[simp] theorem State.emit_regs (v : Option Int) : (s.emit v).regs = s.regs := by cases v <;> rfl
@[simp] theorem State.emit_written (v : Option Int) : (s.emit v).written = s.written := by cases v <;> rfl
@[simp] theorem State.emit_pc (v : Option Int) : (s.emit v).pc = s.pc := by cases v <;> rfl
@[simp] theorem State.emit_flag (v : Option Int) : (s.emit v).flag = s.flag := by cases v <;> rfl
@[simp] theorem State.emit_flagWritten (v : Option Int) : (s.emit v).flagWritten = s.flagWritten := by cases v <;> rfl
@[simp] theorem State.emit_tick (v : Option Int) : (s.emit v).tick = s.tick := by cases v <;> rfl
@[simp] theorem State.emit_out (v : Option Int) : (s.emit v).out = s.out ++ v.toList := by
  cases v <;> simp [State.emit]
@[simp] theorem State.emit_status (v : Option Int) : (s.emit v).status = s.status := by cases v <;> rfl
@[simp] theorem State.emit_program (v : Option Int) : (s.emit v).program = s.program := by cases v <;> rfl
@[simp] theorem State.emit_params (v : Option Int) : (s.emit v).params = s.params := by cases v <;> rfl

end Sys2Proof.Machine
end

