-- ==== Sys2Proof/Laws/Ops.lean ====
section
/-! SUPPORT. One lemma for each shared operation that says everything it can do, in the terms of Safety.lean; the proofs
about instructions cite these and unfold no operation. -/

namespace Sys2Proof.Machine

/-! ## Registers -/

/-- The stored bits after a register write. -/
theorem reg_writeReg (s : State) (r q : RegIdx) (v : Int) :
    (s.writeReg r v).reg q = if q = r then BitVec.ofInt 8 v else s.reg q := by
  simp [State.reg, Vector.get_eq_getElem, Vector.getElem_set, ← BitVec.toNat_inj, eq_comm]

/-- The written bits after a register write. -/
theorem regWritten_writeReg (s : State) (r q : RegIdx) (v : Int) :
    (s.writeReg r v).regWritten q = if q = r then true else s.regWritten q := by
  simp [State.regWritten, Vector.get_eq_getElem, Vector.getElem_set, ← BitVec.toNat_inj, eq_comm]

/-- A value in range survives its storage. -/
theorem toInt_ofInt_of_inByteRange {v : Int} (h : InByteRange v) : (BitVec.ofInt 8 v).toInt = v := by
  rw [BitVec.toInt_ofInt]
  exact Int.bmod_eq_of_le (by omega) (by omega)

/-- A register's value is in range. -/
theorem inByteRange_toInt (b : Byte) : InByteRange b.toInt := by
  have h1 := b.le_toInt
  have h2 := b.toInt_lt
  constructor <;> omega

/-- A register read gives `v` exactly when the register holds `v`. -/
theorem readReg_ok_iff (s : State) (r : RegIdx) (v : Int) : s.readReg r = .ok v ↔ s.holds r v := by
  unfold State.readReg State.readPort
  cases hw : s.regWritten r <;> cases hp : s.params.regReset <;>
    simp [State.holds, hw, hp, @eq_comm _ _ v]

/-- A register read raises a cause exactly when the register is unreadable. -/
theorem readReg_error_iff (s : State) (r : RegIdx) (c : Cause) :
    s.readReg r = .error c ↔ c = .uninitializedRegister ∧ s.unreadable r := by
  unfold State.readReg State.readPort
  cases hw : s.regWritten r <;> cases hp : s.params.regReset <;>
    simp [State.unreadable, hw, hp, @eq_comm _ _ c]

/-- A register that holds a value holds one in range. -/
theorem holds_inByteRange {s : State} {r : RegIdx} {v : Int} (h : s.holds r v) : InByteRange v := by
  rcases h with ⟨-, rfl⟩ | ⟨-, -, rfl⟩
  · exact inByteRange_toInt _
  · constructor <;> omega

/-! ## The flag -/

/-- A flag read gives `b` exactly when the flag holds `b`. -/
theorem readFlag_ok_iff (s : State) (b : Bool) : s.readFlag = .ok b ↔ s.flagHolds b := by
  unfold State.readFlag
  cases hw : s.flagWritten <;> cases hp : s.params.flagReset <;>
    simp [State.flagHolds, hw, hp, @eq_comm _ _ b]

/-- A flag read raises a cause exactly when the flag is unreadable. -/
theorem readFlag_error_iff (s : State) (c : Cause) :
    s.readFlag = .error c ↔ c = .uninitializedFlag ∧ s.flagUnreadable := by
  unfold State.readFlag
  cases hw : s.flagWritten <;> cases hp : s.params.flagReset <;>
    simp [State.flagUnreadable, hw, hp, @eq_comm _ _ c]

/-! ## Operands -/

/-- A sign-magnitude byte is in -127..127. -/
theorem smag_range (b : Byte) : -127 ≤ smag b ∧ smag b ≤ 127 := by
  have h : (b &&& 0x7F#8).toNat ≤ 127 := by
    rw [BitVec.toNat_and]
    exact Nat.and_le_right
  unfold smag
  split <;> constructor <;> omega

/-- The register a type-1 operand byte names, as a number. -/
theorem sourceIdx_eq (opnd : Byte) : sourceIdx opnd = BitVec.ofNat 4 opnd.toNat := by
  apply BitVec.eq_of_toNat_eq
  simp [sourceIdx]

/-- The range check passes exactly when the operand is in range. -/
theorem checkSrc_ok_iff (typ : TypeTag) (opnd : Byte) :
    checkSrc typ opnd = .ok () ↔ ¬ sourceOutOfRange typ opnd := by
  unfold checkSrc
  split <;> simp_all

/-- The range check raises a cause exactly when the operand is out of range. -/
theorem checkSrc_error_iff (typ : TypeTag) (opnd : Byte) (c : Cause) :
    checkSrc typ opnd = .error c ↔ c = .registerOutOfRange ∧ sourceOutOfRange typ opnd := by
  unfold checkSrc
  split <;> simp_all [sourceOutOfRange, @eq_comm _ _ c]

/-- After the range check, the source operand gives `v` exactly when it holds `v`. -/
theorem src_ok_iff {s : State} {typ : TypeTag} {opnd : Byte} (h : ¬ sourceOutOfRange typ opnd) (v : Int) :
    s.src typ opnd = .ok v ↔ s.sourceHolds typ opnd v := by
  unfold State.src
  by_cases ht : typ = 1#2
  · have hr : opnd.toNat < 16 := by
      simp only [sourceOutOfRange, ht, true_and] at h
      omega
    rw [if_pos ht, readReg_ok_iff, sourceIdx_eq]
    exact ⟨fun hv => .inl ⟨ht, hr, hv⟩, fun hv => hv.elim (fun x => x.2.2) (fun x => absurd ht x.1)⟩
  · simp [State.sourceHolds, ht, @eq_comm _ _ v]

/-- After the range check, the source operand raises a cause exactly when it is unreadable. -/
theorem src_error_iff {s : State} {typ : TypeTag} {opnd : Byte} (h : ¬ sourceOutOfRange typ opnd) (c : Cause) :
    s.src typ opnd = .error c ↔ c = .uninitializedRegister ∧ s.sourceUnreadable typ opnd := by
  unfold State.src
  by_cases ht : typ = 1#2
  · have hr : opnd.toNat < 16 := by
      simp only [sourceOutOfRange, ht, true_and] at h
      omega
    rw [if_pos ht, readReg_error_iff, sourceIdx_eq]
    exact ⟨fun hv => ⟨hv.1, ht, hr, hv.2⟩, fun hv => ⟨hv.1, hv.2.2.2⟩⟩
  · simp [State.sourceUnreadable, ht]

/-- A source operand that holds a value holds one in range. -/
theorem sourceHolds_inByteRange {s : State} {typ : TypeTag} {opnd : Byte} {v : Int} (h : s.sourceHolds typ opnd v) :
    InByteRange v := by
  rcases h with ⟨-, -, h⟩ | ⟨-, rfl⟩
  · exact holds_inByteRange h
  · have := smag_range opnd
    constructor <;> omega

/-- The comparand gives `v` exactly when it holds `v`. -/
theorem cmpB_ok_iff (s : State) (typ : TypeTag) (opnd : Byte) (v : Int) :
    s.cmpB typ opnd = .ok v ↔ s.comparandHolds typ opnd v := by
  unfold State.cmpB
  by_cases hc : s.comparesRegister typ
  · have hc' := hc
    obtain ⟨h1, h2⟩ := hc'
    rw [if_pos ⟨h1, h2⟩]
    by_cases hr : opnd.toNat < 16
    · have hk : checkSrc typ opnd = .ok () := (checkSrc_ok_iff typ opnd).2 (by simp only [sourceOutOfRange]; omega)
      simp only [hk, bind, Except.bind]
      rw [readReg_ok_iff, sourceIdx_eq]
      exact ⟨fun hv => .inl ⟨hc, hr, hv⟩, fun hv => hv.elim (fun x => x.2.2) (fun x => absurd hc x.1)⟩
    · have hk : checkSrc typ opnd = .error .registerOutOfRange :=
        (checkSrc_error_iff typ opnd _).2 ⟨rfl, h2, by omega⟩
      simp only [hk, bind, Except.bind]
      exact ⟨fun hv => (nomatch hv), fun hv => hv.elim (fun x => absurd x.2.1 hr) (fun x => absurd hc x.1)⟩
  · rw [if_neg (fun x => hc ⟨x.1, x.2⟩)]
    constructor
    · intro hv
      cases hv
      exact .inr ⟨hc, rfl⟩
    · rintro (⟨x, -⟩ | ⟨-, rfl⟩)
      · exact absurd x hc
      · rfl

/-- The comparand raises a cause exactly in the two cases of R223. -/
theorem cmpB_error_iff (s : State) (typ : TypeTag) (opnd : Byte) (c : Cause) :
    s.cmpB typ opnd = .error c ↔ s.comparesRegister typ ∧
      ((c = .registerOutOfRange ∧ 16 ≤ opnd.toNat) ∨
        (c = .uninitializedRegister ∧ opnd.toNat < 16 ∧ s.unreadable (BitVec.ofNat 4 opnd.toNat))) := by
  unfold State.cmpB
  by_cases hc : s.comparesRegister typ
  · have hc' := hc
    obtain ⟨h1, h2⟩ := hc'
    rw [if_pos ⟨h1, h2⟩]
    by_cases hr : opnd.toNat < 16
    · have hk : checkSrc typ opnd = .ok () := (checkSrc_ok_iff typ opnd).2 (by simp only [sourceOutOfRange]; omega)
      simp only [hk, bind, Except.bind]
      rw [readReg_error_iff, sourceIdx_eq]
      constructor
      · exact fun hv => ⟨hc, .inr ⟨hv.1, hr, hv.2⟩⟩
      · rintro ⟨-, ⟨-, h16⟩ | ⟨h3, -, h4⟩⟩
        · omega
        · exact ⟨h3, h4⟩
    · have hk : checkSrc typ opnd = .error .registerOutOfRange :=
        (checkSrc_error_iff typ opnd _).2 ⟨rfl, h2, by omega⟩
      simp only [hk, bind, Except.bind]
      constructor
      · intro hv
        cases hv
        exact ⟨hc, .inl ⟨rfl, by omega⟩⟩
      · rintro ⟨-, ⟨rfl, -⟩ | ⟨-, h3, -⟩⟩
        · rfl
        · omega
  · rw [if_neg (fun x => hc ⟨x.1, x.2⟩)]
    exact ⟨fun hv => (nomatch hv), fun hv => absurd hv.1 hc⟩

/-! ## The arithmetic unit -/

/-- The quotient is Lean's quotient rounded toward zero. -/
theorem quot_eq_tdiv (a b : Int) : quot a b = a.tdiv b := by
  obtain ⟨m, rfl | rfl⟩ := a.eq_nat_or_neg <;> obtain ⟨n, rfl | rfl⟩ := b.eq_nat_or_neg <;>
    rcases Nat.eq_zero_or_pos m with rfl | hm <;> rcases Nat.eq_zero_or_pos n with rfl | hn <;>
    simp [quot, Int.sign_natCast_of_ne_zero, Nat.pos_iff_ne_zero.1, *]

/-- The unit gives a result exactly when the divisor is not zero and the exact result is in range. -/
theorem alu_ok_iff (fn : AluFn) (a b r : Int) :
    (alu fn a b).toExcept = .ok r ↔ ¬ (fn = .div ∧ b = 0) ∧ InByteRange (aluExact fn a b) ∧ r = aluExact fn a b := by
  unfold alu
  by_cases h0 : fn = .div ∧ b = 0
  · rw [if_pos h0]
    exact ⟨fun h => (nomatch h), fun h => absurd h0 h.1⟩
  · rw [if_neg h0]
    by_cases hr : InByteRange (aluExact fn a b)
    · rw [if_pos hr]
      exact ⟨fun h => ⟨h0, hr, by cases h; rfl⟩, fun h => by rw [h.2.2]; rfl⟩
    · rw [if_neg hr]
      exact ⟨fun h => (nomatch h), fun h => absurd h.2.1 hr⟩

/-- The unit raises a cause exactly on a zero divisor or an exact result out of range. -/
theorem alu_error_iff (fn : AluFn) (a b : Int) (c : Cause) :
    (alu fn a b).toExcept = .error c ↔
      (c = .divideByZero ∧ fn = .div ∧ b = 0) ∨
        (c = .arithmeticOverflow ∧ ¬ (fn = .div ∧ b = 0) ∧ ¬ InByteRange (aluExact fn a b)) := by
  unfold alu
  by_cases h0 : fn = .div ∧ b = 0
  · rw [if_pos h0]
    exact ⟨fun h => by cases h; exact .inl ⟨rfl, h0⟩, fun h => h.elim (fun x => by rw [x.1]; rfl) (fun x => absurd h0 x.2.1)⟩
  · rw [if_neg h0]
    by_cases hr : InByteRange (aluExact fn a b)
    · rw [if_pos hr]
      exact ⟨fun h => (nomatch h), fun h => h.elim (fun x => absurd x.2 h0) (fun x => absurd hr x.2.2)⟩
    · rw [if_neg hr]
      exact ⟨fun h => by cases h; exact .inr ⟨rfl, h0, hr⟩,
        fun h => h.elim (fun x => absurd x.2 h0) (fun x => by rw [x.1]; rfl)⟩

/-! ## Branches and completion -/

/-- The landing as the natural-number arithmetic of the spec's table. -/
theorem landing_eq (u : Nat) : landing u = (u - 2) + 1 := by
  unfold landing
  omega

/-- The status a completion leaves. -/
theorem complete_status_eq (s : State) : s.complete.status = s.statusAfterTick := by
  simp only [State.complete_status, State.statusAfterTick, tickLimitExceeded]
  cases s.params.tickLimit <;> simp

end Sys2Proof.Machine
end

