-- ==== Sys2Proof/Laws/Exec.lean ====
section
/-! SUPPORT. What each instruction's rule can do, as an equivalence: the state it leaves, or the cause it raises; and the
inversions of retirement and of the step, from which facts about all instructions follow by cases. -/

namespace Sys2Proof.Machine

/-! ## The rules -/

/-- The rule of PRT (R160): its writes and next `pc`, or its cause. -/
def State.print (s : State) (reg : RegIdx) (typ : TypeTag) (opnd : Byte) : Except Cause State := do
  let qa ← s.printRegister reg typ
  return (s.emit (outputPort typ (smag opnd) qa)).advance

/-- The rule of SET (R161). -/
def State.move (s : State) (reg : RegIdx) (typ : TypeTag) (opnd : Byte) : Except Cause State := do
  checkSrc typ opnd
  let v ← s.src typ opnd
  return (s.writeReg reg v).advance

/-- The rule of an instruction: its writes and next `pc`, or its cause. -/
def effect : Instr → State → Except Cause State
  | .prt r t n, s => s.print r t n
  | .set r t n, s => s.move r t n
  | .add r t n, s => s.arith .add r t n
  | .sub r t n, s => s.arith .sub r t n
  | .mul r t n, s => s.arith .mul r t n
  | .div r t n, s => s.arith .div r t n
  | .jmp _ _ n, s => s.branch true n
  | .jnp _ _ n, s => s.branch false n
  | .eql r t n, s => s.compare .eql r t n
  | .cbp r t n, s => s.compare .cbp r t n
  | .clp r t n, s => s.compare .clp r t n

/-- Every instruction retires its rule. -/
theorem exec_eq_retire (i : Instr) (s : State) : exec i s = s.retire (encode i) (effect i s) := by
  cases i <;> rfl

/-- A type-2 PRT of a register that holds `v`. -/
theorem print_register {s : State} {reg : RegIdx} {v : Int} (opnd : Byte) (h : s.holds reg v) :
    s.print reg 2#2 opnd = .ok (s.appendOut v).advance := by
  simp [State.print, State.printRegister, (readReg_ok_iff s reg v).2 h, outputPort, State.emit, bind, Except.bind, pure,
    Except.pure]

/-- A type-0 PRT. -/
theorem print_literal (s : State) (reg : RegIdx) (opnd : Byte) :
    s.print reg 0#2 opnd = .ok (s.appendOut (smag opnd)).advance := by
  simp [State.print, State.printRegister, outputPort, State.emit, bind, Except.bind, pure, Except.pure]

/-- PRT of a type other than 0 and 2. -/
theorem print_other {typ : TypeTag} (h0 : typ ≠ 0#2) (h2 : typ ≠ 2#2) (s : State) (reg : RegIdx) (opnd : Byte) :
    s.print reg typ opnd = .ok s.advance := by
  simp [State.print, State.printRegister, outputPort, State.emit, h0, h2, bind, Except.bind, pure, Except.pure]

/-- PRT raises only `UninitializedRegister`, exactly on a type-2 read of an unreadable register. -/
theorem print_error_iff (s : State) (reg : RegIdx) (typ : TypeTag) (opnd : Byte) (c : Cause) :
    s.print reg typ opnd = .error c ↔ typ = 2#2 ∧ c = .uninitializedRegister ∧ s.unreadable reg := by
  unfold State.print State.printRegister
  by_cases ht : typ = 2#2
  · rw [if_pos ht]
    cases h : s.readReg reg with
    | ok v => simp [bind, Except.bind, pure, Except.pure, ← readReg_error_iff, h]
    | error e => simp [bind, Except.bind, ht, ← readReg_error_iff, h]
  · simp [ht, bind, Except.bind, pure, Except.pure]

/-- PRT completes with at most one entry more and `pc` at the next index. -/
theorem print_ok {s u : State} {reg : RegIdx} {typ : TypeTag} {opnd : Byte} (h : s.print reg typ opnd = .ok u) :
    u = s.advance ∨ ∃ v, (v = smag opnd ∨ s.holds reg v) ∧ u = (s.appendOut v).advance := by
  by_cases h0 : typ = 0#2
  · subst h0
    rw [print_literal] at h
    cases h
    exact .inr ⟨_, .inl rfl, rfl⟩
  · by_cases h2 : typ = 2#2
    · subst h2
      cases hr : s.readReg reg with
      | ok v =>
        have hv := (readReg_ok_iff s reg v).1 hr
        rw [print_register opnd hv] at h
        cases h
        exact .inr ⟨v, .inr hv, rfl⟩
      | error e =>
        have he := (readReg_error_iff s reg e).1 hr
        rw [(print_error_iff s reg 2#2 opnd _).2 ⟨rfl, rfl, he.2⟩] at h
        cases h
    · rw [print_other h0 h2] at h
      cases h
      exact .inl rfl

/-- SET completes exactly when its operand is in range and holds a value, which it writes. -/
theorem move_ok_iff (s u : State) (reg : RegIdx) (typ : TypeTag) (opnd : Byte) :
    s.move reg typ opnd = .ok u ↔
      ¬ sourceOutOfRange typ opnd ∧ ∃ v, s.sourceHolds typ opnd v ∧ u = (s.writeReg reg v).advance := by
  unfold State.move
  by_cases hr : sourceOutOfRange typ opnd
  · have hk := (checkSrc_error_iff typ opnd _).2 ⟨rfl, hr⟩
    simp only [hk, bind, Except.bind]
    exact ⟨fun h => (nomatch h), fun h => absurd hr h.1⟩
  · simp only [(checkSrc_ok_iff typ opnd).2 hr, bind, Except.bind, hr, not_false_eq_true, true_and]
    simp only [← src_ok_iff hr]
    cases s.src typ opnd <;> simp [pure, Except.pure, @eq_comm _ u]

/-- SET raises exactly on an operand out of range or unreadable. -/
theorem move_error_iff (s : State) (reg : RegIdx) (typ : TypeTag) (opnd : Byte) (c : Cause) :
    s.move reg typ opnd = .error c ↔
      (c = .registerOutOfRange ∧ sourceOutOfRange typ opnd) ∨
        (¬ sourceOutOfRange typ opnd ∧ c = .uninitializedRegister ∧ s.sourceUnreadable typ opnd) := by
  unfold State.move
  by_cases hr : sourceOutOfRange typ opnd
  · have hk := (checkSrc_error_iff typ opnd _).2 ⟨rfl, hr⟩
    simp only [hk, bind, Except.bind]
    exact ⟨fun h => by cases h; exact .inl ⟨rfl, hr⟩,
      fun h => h.elim (fun x => by rw [x.1]) (fun x => absurd hr x.1)⟩
  · simp only [(checkSrc_ok_iff typ opnd).2 hr, bind, Except.bind, hr, not_false_eq_true, true_and, and_false, false_or]
    rw [← src_error_iff hr]
    cases s.src typ opnd <;> simp [pure, Except.pure]

/-- ADD, SUB, MUL and DIV complete exactly when both operands hold values, the divisor is not zero and the exact result
is in range; they write that result. -/
theorem arith_ok_iff (s u : State) (fn : AluFn) (reg : RegIdx) (typ : TypeTag) (opnd : Byte) :
    s.arith fn reg typ opnd = .ok u ↔
      ¬ sourceOutOfRange typ opnd ∧ ∃ a b, s.holds reg a ∧ s.sourceHolds typ opnd b ∧ ¬ (fn = .div ∧ b = 0) ∧
        InByteRange (aluExact fn a b) ∧ u = (s.writeReg reg (aluExact fn a b)).advance := by
  unfold State.arith
  by_cases hr : sourceOutOfRange typ opnd
  · have hk := (checkSrc_error_iff typ opnd _).2 ⟨rfl, hr⟩
    simp only [hk, bind, Except.bind]
    exact ⟨fun h => (nomatch h), fun h => absurd hr h.1⟩
  · simp only [(checkSrc_ok_iff typ opnd).2 hr, bind, Except.bind, hr, not_false_eq_true, true_and]
    simp only [← src_ok_iff hr, ← readReg_ok_iff]
    cases s.readReg reg with
    | error e => simp
    | ok a =>
      cases s.src typ opnd with
      | error e => simp
      | ok b =>
        simp only [Except.ok.injEq]
        cases hx : (alu fn a b).toExcept with
        | ok r =>
          obtain ⟨h1, h2, rfl⟩ := (alu_ok_iff fn a b r).1 hx
          simp only [pure, Except.pure, Except.ok.injEq]
          constructor
          · rintro rfl
            exact ⟨a, b, rfl, rfl, h1, h2, rfl⟩
          · rintro ⟨_, _, rfl, rfl, -, -, rfl⟩
            rfl
        | error c =>
          refine ⟨fun h => (nomatch h), ?_⟩
          rintro ⟨_, _, rfl, rfl, h1, h2, -⟩
          have := (alu_ok_iff fn a b _).2 ⟨h1, h2, rfl⟩
          rw [hx] at this
          cases this

/-- ADD, SUB, MUL and DIV raise exactly in these cases, which are in the order of 60_exceptions.md R244. -/
theorem arith_error_iff (s : State) (fn : AluFn) (reg : RegIdx) (typ : TypeTag) (opnd : Byte) (c : Cause) :
    s.arith fn reg typ opnd = .error c ↔
      (c = .registerOutOfRange ∧ sourceOutOfRange typ opnd) ∨
        (¬ sourceOutOfRange typ opnd ∧
          ((c = .uninitializedRegister ∧ s.unreadable reg) ∨
            ∃ a, s.holds reg a ∧
              ((c = .uninitializedRegister ∧ s.sourceUnreadable typ opnd) ∨
                ∃ b, s.sourceHolds typ opnd b ∧
                  ((c = .divideByZero ∧ fn = .div ∧ b = 0) ∨
                    (c = .arithmeticOverflow ∧ ¬ (fn = .div ∧ b = 0) ∧ ¬ InByteRange (aluExact fn a b)))))) := by
  unfold State.arith
  by_cases hr : sourceOutOfRange typ opnd
  · have hk := (checkSrc_error_iff typ opnd _).2 ⟨rfl, hr⟩
    simp only [hk, bind, Except.bind]
    exact ⟨fun h => by cases h; exact .inl ⟨rfl, hr⟩,
      fun h => h.elim (fun x => by rw [x.1]) (fun x => absurd hr x.1)⟩
  · simp only [(checkSrc_ok_iff typ opnd).2 hr, bind, Except.bind, hr, not_false_eq_true, true_and, and_false, false_or]
    simp only [← src_ok_iff hr, ← src_error_iff hr, ← readReg_ok_iff, ← readReg_error_iff, ← alu_error_iff]
    cases s.readReg reg with
    | error e => simp
    | ok a =>
      cases s.src typ opnd with
      | error e => simp
      | ok b =>
        simp only [reduceCtorEq, Except.ok.injEq, exists_eq_left', false_or]
        cases (alu fn a b).toExcept <;> simp [pure, Except.pure]

/-- JMP and JNP complete exactly when the flag holds a value. -/
theorem branch_ok_iff (s u : State) (takenWhen : Bool) (opnd : Byte) :
    s.branch takenWhen opnd = .ok u ↔
      ∃ f, s.flagHolds f ∧ u = s.setPc (branchNext takenWhen f opnd.toNat s.pc) := by
  unfold State.branch
  simp only [← readFlag_ok_iff]
  cases s.readFlag <;> simp [bind, Except.bind, pure, Except.pure, @eq_comm _ u]

/-- JMP and JNP raise only `UninitializedFlag`. -/
theorem branch_error_iff (s : State) (takenWhen : Bool) (opnd : Byte) (c : Cause) :
    s.branch takenWhen opnd = .error c ↔ c = .uninitializedFlag ∧ s.flagUnreadable := by
  unfold State.branch
  rw [← readFlag_error_iff]
  cases s.readFlag <;> simp [bind, Except.bind, pure, Except.pure]

/-- EQL, CBP and CLP complete exactly when the target and the comparand hold values. -/
theorem compare_ok_iff (s u : State) (op : CmpOp) (reg : RegIdx) (typ : TypeTag) (opnd : Byte) :
    s.compare op reg typ opnd = .ok u ↔
      ∃ a b, s.comparandHolds typ opnd b ∧ s.holds reg a ∧ u = (s.setFlag (comparator op a b)).advance := by
  unfold State.compare
  simp only [← cmpB_ok_iff, ← readReg_ok_iff]
  cases s.cmpB typ opnd with
  | error e => simp [bind, Except.bind]
  | ok b =>
    cases s.readReg reg <;> simp [bind, Except.bind, pure, Except.pure, @eq_comm _ u]

/-- EQL, CBP and CLP raise exactly in these cases, in the order of R223. -/
theorem compare_error_iff (s : State) (op : CmpOp) (reg : RegIdx) (typ : TypeTag) (opnd : Byte) (c : Cause) :
    s.compare op reg typ opnd = .error c ↔
      s.cmpB typ opnd = .error c ∨
        ∃ b, s.comparandHolds typ opnd b ∧ c = .uninitializedRegister ∧ s.unreadable reg := by
  unfold State.compare
  simp only [← cmpB_ok_iff, ← readReg_error_iff]
  cases s.cmpB typ opnd with
  | error e => simp [bind, Except.bind]
  | ok b => cases s.readReg reg <;> simp [bind, Except.bind, pure, Except.pure]

/-! ## The shape of a completed rule -/

/-- What a completed rule leaves: one write at most, and the next `pc`. -/
def CompletedShape : Instr → State → State → Prop
  | .prt _ _ _, s, u => u = s.advance ∨ ∃ v, InByteRange v ∧ u = (s.appendOut v).advance
  | .set r _ _, s, u => ∃ v, InByteRange v ∧ u = (s.writeReg r v).advance
  | .add r _ _, s, u => ∃ v, InByteRange v ∧ u = (s.writeReg r v).advance
  | .sub r _ _, s, u => ∃ v, InByteRange v ∧ u = (s.writeReg r v).advance
  | .mul r _ _, s, u => ∃ v, InByteRange v ∧ u = (s.writeReg r v).advance
  | .div r _ _, s, u => ∃ v, InByteRange v ∧ u = (s.writeReg r v).advance
  | .jmp _ _ n, s, u => ∃ f, s.flagHolds f ∧ u = s.setPc (branchNext true f n.toNat s.pc)
  | .jnp _ _ n, s, u => ∃ f, s.flagHolds f ∧ u = s.setPc (branchNext false f n.toNat s.pc)
  | .eql _ _ _, s, u => ∃ b, u = (s.setFlag b).advance
  | .cbp _ _ _, s, u => ∃ b, u = (s.setFlag b).advance
  | .clp _ _ _, s, u => ∃ b, u = (s.setFlag b).advance

/-- A completed arithmetic rule writes one value in range to its target. -/
theorem arith_shape {s u : State} {fn : AluFn} {reg : RegIdx} {typ : TypeTag} {opnd : Byte}
    (h : s.arith fn reg typ opnd = .ok u) : ∃ v, InByteRange v ∧ u = (s.writeReg reg v).advance := by
  obtain ⟨-, a, b, -, -, -, hv, e⟩ := (arith_ok_iff _ _ _ _ _ _).1 h
  exact ⟨_, hv, e⟩

/-- A completed comparison writes the flag. -/
theorem compare_shape {s u : State} {op : CmpOp} {reg : RegIdx} {typ : TypeTag} {opnd : Byte}
    (h : s.compare op reg typ opnd = .ok u) : ∃ b, u = (s.setFlag b).advance := by
  obtain ⟨a, b, -, -, e⟩ := (compare_ok_iff _ _ _ _ _ _).1 h
  exact ⟨_, e⟩

/-- Every completed rule has its shape. -/
theorem effect_ok_shape {i : Instr} {s u : State} (h : effect i s = .ok u) : CompletedShape i s u := by
  cases i with
  | prt r t n =>
    rcases print_ok h with rfl | ⟨v, rfl | hv, rfl⟩
    · exact .inl rfl
    · have := smag_range n
      exact .inr ⟨_, by constructor <;> omega, rfl⟩
    · exact .inr ⟨_, holds_inByteRange hv, rfl⟩
  | set r t n =>
    obtain ⟨-, v, hv, e⟩ := (move_ok_iff _ _ _ _ _).1 h
    exact ⟨v, sourceHolds_inByteRange hv, e⟩
  | add r t n => exact arith_shape h
  | sub r t n => exact arith_shape h
  | mul r t n => exact arith_shape h
  | div r t n => exact arith_shape h
  | jmp r t n => exact (branch_ok_iff _ _ _ _).1 h
  | jnp r t n => exact (branch_ok_iff _ _ _ _).1 h
  | eql r t n => exact compare_shape h
  | cbp r t n => exact compare_shape h
  | clp r t n => exact compare_shape h

/-- A completed rule leaves the tick count, the status, the program and the parameters to completion. -/
theorem effect_ok_frame {i : Instr} {s u : State} (h : effect i s = .ok u) :
    u.tick = s.tick ∧ u.status = s.status ∧ u.program = s.program ∧ u.params = s.params := by
  have hs := effect_ok_shape h
  cases i with
  | prt r t n => rcases hs with rfl | ⟨v, -, rfl⟩ <;> exact ⟨rfl, rfl, rfl, rfl⟩
  | set r t n => obtain ⟨v, -, rfl⟩ := hs; exact ⟨rfl, rfl, rfl, rfl⟩
  | add r t n => obtain ⟨v, -, rfl⟩ := hs; exact ⟨rfl, rfl, rfl, rfl⟩
  | sub r t n => obtain ⟨v, -, rfl⟩ := hs; exact ⟨rfl, rfl, rfl, rfl⟩
  | mul r t n => obtain ⟨v, -, rfl⟩ := hs; exact ⟨rfl, rfl, rfl, rfl⟩
  | div r t n => obtain ⟨v, -, rfl⟩ := hs; exact ⟨rfl, rfl, rfl, rfl⟩
  | jmp r t n => obtain ⟨f, -, rfl⟩ := hs; exact ⟨rfl, rfl, rfl, rfl⟩
  | jnp r t n => obtain ⟨f, -, rfl⟩ := hs; exact ⟨rfl, rfl, rfl, rfl⟩
  | eql r t n => obtain ⟨b, rfl⟩ := hs; exact ⟨rfl, rfl, rfl, rfl⟩
  | cbp r t n => obtain ⟨b, rfl⟩ := hs; exact ⟨rfl, rfl, rfl, rfl⟩
  | clp r t n => obtain ⟨b, rfl⟩ := hs; exact ⟨rfl, rfl, rfl, rfl⟩

/-! ## Retirement and the step -/

@[simp] theorem retire_ok (s t : State) (w : Word) : s.retire w (.ok t) = .next t.complete := rfl

@[simp] theorem retire_error (s : State) (w : Word) (c : Cause) : s.retire w (.error c) = .next (s.raise c w) := rfl

/-- Retirement gives a next state: the completed rule, or the fault record on the state before. -/
theorem retire_next_iff (s t : State) (w : Word) (r : Except Cause State) :
    s.retire w r = .next t ↔ (∃ u, r = .ok u ∧ t = u.complete) ∨ (∃ c, r = .error c ∧ t = s.raise c w) := by
  cases r <;> simp [@eq_comm _ t]

/-- What an instruction can do: complete its rule or take a fault. -/
theorem exec_next_iff (i : Instr) (s t : State) :
    exec i s = .next t ↔
      (∃ u, effect i s = .ok u ∧ t = u.complete) ∨ (∃ c, effect i s = .error c ∧ t = s.raise c (encode i)) := by
  rw [exec_eq_retire, retire_next_iff]

/-- What a step can do when it gives a next state: halt past the end, fault on a word that is no instruction, or run
the instruction. -/
theorem step_next_cases {s t : State} (h : step s = .next t) :
    s.status = .running ∧
      ((s.fetch = none ∧ t = s.halt) ∨
        (∃ w e, s.fetch = some w ∧ decodeWord w = .error e ∧ t = s.raise (causeOfDecodeError e) w) ∨
          (∃ w i, s.fetch = some w ∧ decodeWord w = .ok i ∧ exec i s = .next t)) := by
  unfold step at h
  split at h
  · cases h
  · cases h
  · refine ⟨by assumption, ?_⟩
    split at h
    · cases h
      exact .inl ⟨by assumption, rfl⟩
    · split at h
      · cases h
        exact .inr (.inl ⟨_, _, by assumption, by assumption, rfl⟩)
      · exact .inr (.inr ⟨_, _, by assumption, by assumption, h⟩)

end Sys2Proof.Machine
end

