-- ==== Sys2Proof/Laws/Image.lean ====
section
/-! SUPPORT. The program image: reading after writing, the canonical form and who keeps it, and what a fetch gives
after a load. -/

namespace Sys2Proof.Machine

/-! ## Cells -/

/-- In a canonical list, an address below its lower bound is not listed. -/
theorem cellsRead_below {hi lo a : Nat} {cs : List Host.Cell} (h : cellsCanonical hi lo cs = true) (ha : a < lo) :
    cellsRead cs a = 0#8 := by
  induction cs generalizing lo with
  | nil => rfl
  | cons c cs ih =>
    obtain ⟨k, v⟩ := c
    simp only [cellsCanonical, Bool.and_eq_true, decide_eq_true_eq] at h
    have hk : k ≠ a := by omega
    simp only [cellsRead, hk, if_false]
    exact ih h.2 (by omega)

/-- A canonical list stays canonical under a smaller lower bound. -/
theorem cellsCanonical_mono {hi lo lo' : Nat} {cs : List Host.Cell} (h : cellsCanonical hi lo cs = true)
    (hl : lo' ≤ lo) : cellsCanonical hi lo' cs = true := by
  cases cs with
  | nil => rfl
  | cons c cs =>
    simp only [cellsCanonical, Bool.and_eq_true, decide_eq_true_eq] at h ⊢
    exact ⟨⟨⟨by omega, h.1.1.2⟩, h.1.2⟩, h.2⟩

/-- A canonical list stays canonical under a larger upper bound. -/
theorem cellsCanonical_mono_hi {hi hi' lo : Nat} {cs : List Host.Cell} (h : cellsCanonical hi lo cs = true)
    (hl : hi ≤ hi') : cellsCanonical hi' lo cs = true := by
  induction cs generalizing lo with
  | nil => rfl
  | cons c cs ih =>
    simp only [cellsCanonical, Bool.and_eq_true, decide_eq_true_eq] at h ⊢
    exact ⟨⟨⟨h.1.1.1, by omega⟩, h.1.2⟩, ih h.2⟩

/-- Writing a byte keeps the canonical form. -/
theorem cellsCanonical_write {hi lo a : Nat} {cs : List Host.Cell} (b : Byte) (h : cellsCanonical hi lo cs = true)
    (hlo : lo ≤ a) (hhi : a < hi) : cellsCanonical hi lo (cellsWrite cs a b) = true := by
  induction cs generalizing lo with
  | nil =>
    by_cases hb : b = 0#8 <;> simp [cellsWrite, hb, cellsCanonical, hlo, hhi]
  | cons c cs ih =>
    obtain ⟨k, v⟩ := c
    have h' := h
    simp only [cellsCanonical, Bool.and_eq_true, decide_eq_true_eq] at h'
    obtain ⟨⟨⟨h1, h2⟩, h3⟩, h4⟩ := h'
    simp only [cellsWrite]
    by_cases hak : a < k
    · by_cases hb : b = 0#8
      · simp [hak, hb, h]
      · simp only [hak, if_true, hb, if_false, cellsCanonical, Bool.and_eq_true, decide_eq_true_eq]
        exact ⟨⟨⟨hlo, hhi⟩, hb⟩, ⟨⟨by omega, h2⟩, h3⟩, h4⟩
    · by_cases hek : a = k
      · subst hek
        by_cases hb : b = 0#8
        · simp only [Nat.lt_irrefl, if_false, if_true, hb]
          exact cellsCanonical_mono h4 (by omega)
        · simp only [Nat.lt_irrefl, if_false, if_true, hb, cellsCanonical, Bool.and_eq_true, decide_eq_true_eq]
          exact ⟨⟨⟨hlo, hhi⟩, hb⟩, h4⟩
      · simp only [hak, if_false, hek, cellsCanonical, Bool.and_eq_true, decide_eq_true_eq]
        exact ⟨⟨⟨h1, h2⟩, h3⟩, ih h4 (by omega)⟩

/-- Reading after writing a byte: the byte written at its address, every other address as before. -/
theorem cellsRead_write {hi lo : Nat} {cs : List Host.Cell} (h : cellsCanonical hi lo cs = true) (a a' : Nat)
    (b : Byte) : cellsRead (cellsWrite cs a b) a' = if a' = a then b else cellsRead cs a' := by
  induction cs generalizing lo with
  | nil =>
    by_cases ha : a' = a
    · by_cases hb : b = 0#8 <;> simp [cellsWrite, cellsRead, hb, ha]
    · have ha' : ¬ a = a' := fun e => ha e.symm
      by_cases hb : b = 0#8 <;> simp [cellsWrite, cellsRead, hb, ha, ha']
  | cons c cs ih =>
    obtain ⟨k, v⟩ := c
    simp only [cellsCanonical, Bool.and_eq_true, decide_eq_true_eq] at h
    obtain ⟨⟨⟨h1, h2⟩, h3⟩, h4⟩ := h
    simp only [cellsWrite]
    by_cases hak : a < k
    · by_cases hb : b = 0#8
      · by_cases ha : a' = a
        · subst ha
          have : k ≠ a' := by omega
          simp only [hak, if_true, hb, cellsRead, this, if_false]
          exact cellsRead_below h4 (by omega)
        · simp [hak, hb, ha]
      · by_cases ha : a' = a
        · simp [hak, hb, cellsRead, ha]
        · have ha' : ¬ a = a' := fun e => ha e.symm
          simp [hak, hb, cellsRead, ha, ha']
    · by_cases hek : a = k
      · subst hek
        by_cases hb : b = 0#8
        · by_cases ha : a' = a
          · subst ha
            simp only [Nat.lt_irrefl, if_false, if_true, hb]
            exact cellsRead_below h4 (by omega)
          · have : a ≠ a' := fun e => ha e.symm
            simp [hb, cellsRead, ha, this]
        · by_cases ha : a' = a
          · simp [hb, cellsRead, ha]
          · have : a ≠ a' := fun e => ha e.symm
            simp [hb, cellsRead, ha, this]
      · simp only [hak, if_false, hek, cellsRead]
        by_cases hk : k = a'
        · have : a' ≠ a := by omega
          simp [hk, this]
        · simp only [hk, if_false]
          exact ih h4

/-- The cells of a byte list are canonical. -/
theorem cellsCanonical_ofBytes (bs : List Byte) (lo hi : Nat) (h : lo + bs.length ≤ hi) :
    cellsCanonical hi lo (cellsOfBytes lo bs) = true := by
  induction bs generalizing lo with
  | nil => rfl
  | cons b bs ih =>
    simp only [List.length_cons] at h
    have hrec := ih (lo + 1) (by omega)
    by_cases hb : b = 0#8
    · simp only [cellsOfBytes, hb, if_true]
      exact cellsCanonical_mono hrec (by omega)
    · simp only [cellsOfBytes, hb, if_false, cellsCanonical, Bool.and_eq_true, decide_eq_true_eq]
      exact ⟨⟨⟨Nat.le_refl _, by omega⟩, hb⟩, hrec⟩

/-- Reading the cells of a byte list gives the bytes. -/
theorem cellsRead_ofBytes (bs : List Byte) (lo a : Nat) :
    cellsRead (cellsOfBytes lo bs) (lo + a) = bs.getD a 0#8 := by
  induction bs generalizing lo a with
  | nil => simp [cellsOfBytes, cellsRead]
  | cons b bs ih =>
    cases a with
    | zero =>
      by_cases hb : b = 0#8
      · simp only [cellsOfBytes, hb, if_true, Nat.add_zero, List.getD_cons_zero]
        exact cellsRead_below (cellsCanonical_ofBytes bs (lo + 1) (lo + 1 + bs.length) (Nat.le_refl _)) (by omega)
      · simp [cellsOfBytes, hb, cellsRead]
    | succ a =>
      have e : lo + (a + 1) = lo + 1 + a := by omega
      by_cases hb : b = 0#8
      · simp only [cellsOfBytes, hb, if_true, List.getD_cons_succ, e]
        exact ih (lo + 1) a
      · have hk : lo ≠ lo + 1 + a := by omega
        simp only [cellsOfBytes, hb, if_false, cellsRead, List.getD_cons_succ, e, hk]
        exact ih (lo + 1) a

/-! ## Images -/

/-- The image of an artifact is canonical. -/
theorem ofBytes_wf {bs : List Byte} (h : bs.length % 4 = 0) : (ProgramImage.ofBytes bs).wf = true := by
  refine cellsCanonical_ofBytes bs 0 _ ?_
  simp only [ProgramImage.ofBytes]
  omega

/-- Loading a word keeps the canonical form. -/
theorem setWord_wf {p : ProgramImage} (h : p.wf = true) (i : Nat) (w : Word) : (p.setWord i w).wf = true := by
  have hi : 4 * (i + 1) ≤ 4 * max p.length (i + 1) := by omega
  have h0 : cellsCanonical (4 * max p.length (i + 1)) 0 p.cells = true := cellsCanonical_mono_hi h (by omega)
  simp only [ProgramImage.wf, ProgramImage.setWord]
  refine cellsCanonical_write _ (cellsCanonical_write _ (cellsCanonical_write _ (cellsCanonical_write _ h0 ?_ ?_)
    ?_ ?_) ?_ ?_) ?_ ?_ <;> omega

/-- The empty image of the reset state is canonical. -/
theorem reset_program_wf : State.reset.program.wf = true := rfl

/-- A word is the concatenation of its four bytes. -/
theorem wordOfBytes_bytes (w : Word) :
    wordOfBytes (w.extractLsb' 24 8) (w.extractLsb' 16 8) (w.extractLsb' 8 8) (w.extractLsb' 0 8) = w := by
  apply BitVec.eq_of_getLsbD_eq
  intro i hi
  simp only [wordOfBytes, BitVec.getLsbD_append, BitVec.getLsbD_extractLsb']
  interval_cases i <;> simp

/-- A fetch of the word just loaded. -/
theorem fetch_setWord {p : ProgramImage} (h : p.wf = true) (i : Nat) (w : Word) :
    (p.setWord i w).fetch i = some w := by
  have h0 : cellsCanonical (4 * max p.length (i + 1)) 0 p.cells = true := cellsCanonical_mono_hi h (by omega)
  have h1 := cellsCanonical_write (a := 4 * i) (w.extractLsb' 24 8) h0 (by omega) (by omega)
  have h2 := cellsCanonical_write (a := 4 * i + 1) (w.extractLsb' 16 8) h1 (by omega) (by omega)
  have h3 := cellsCanonical_write (a := 4 * i + 2) (w.extractLsb' 8 8) h2 (by omega) (by omega)
  have hl : i < max p.length (i + 1) := by omega
  simp only [ProgramImage.fetch, ProgramImage.setWord, hl, if_true, cellsRead_write h3, cellsRead_write h2,
    cellsRead_write h1, cellsRead_write h0]
  simp [wordOfBytes_bytes]

/-- The next step of `withFetchWord` fetches the word. -/
theorem withFetchWord_fetch {s : State} (h : s.program.wf = true) (nbits w : Nat) :
    (s.withFetchWord nbits w).fetch = some (BitVec.ofNat 32 (w % 2 ^ nbits)) :=
  fetch_setWord h _ _

end Sys2Proof.Machine
end

