-- ==== Sys2Proof/Laws/PerInstr.lean ====
section
/-! SUPPORT. Facts stated for every instruction, one lemma per constructor of Instr. -/

namespace Sys2Proof.Laws.OpcodeMap

/-- The two readings of the opcode map (30_encoding.md R90) agree on `i`: its fields pass the well-formedness check and
name `i` again. -/
def Statement (i : Instr) : Prop := i.toFields.wellFormed = true ∧ instrOfFields i.toFields = some i

theorem prt (reg : RegIdx) (typ : TypeTag) (opnd : Byte) : Statement (.prt reg typ opnd) := ⟨rfl, rfl⟩
theorem set (reg : RegIdx) (typ : TypeTag) (opnd : Byte) : Statement (.set reg typ opnd) := ⟨rfl, rfl⟩
theorem add (reg : RegIdx) (typ : TypeTag) (opnd : Byte) : Statement (.add reg typ opnd) := ⟨rfl, rfl⟩
theorem sub (reg : RegIdx) (typ : TypeTag) (opnd : Byte) : Statement (.sub reg typ opnd) := ⟨rfl, rfl⟩
theorem mul (reg : RegIdx) (typ : TypeTag) (opnd : Byte) : Statement (.mul reg typ opnd) := ⟨rfl, rfl⟩
theorem div (reg : RegIdx) (typ : TypeTag) (opnd : Byte) : Statement (.div reg typ opnd) := ⟨rfl, rfl⟩
theorem jmp (reg : RegIdx) (typ : TypeTag) (opnd : Byte) : Statement (.jmp reg typ opnd) := ⟨rfl, rfl⟩
theorem jnp (reg : RegIdx) (typ : TypeTag) (opnd : Byte) : Statement (.jnp reg typ opnd) := ⟨rfl, rfl⟩
theorem eql (reg : RegIdx) (typ : TypeTag) (opnd : Byte) : Statement (.eql reg typ opnd) := ⟨rfl, rfl⟩
theorem cbp (reg : RegIdx) (typ : TypeTag) (opnd : Byte) : Statement (.cbp reg typ opnd) := ⟨rfl, rfl⟩
theorem clp (reg : RegIdx) (typ : TypeTag) (opnd : Byte) : Statement (.clp reg typ opnd) := ⟨rfl, rfl⟩

end Sys2Proof.Laws.OpcodeMap
end

