-- ==== Sys2Proof/Tests/Slice0.lean ====
section
/-! SUPPORT. The model's own tests. Expected values come from spec/95_test_vectors.md or are worked out by hand from the
rule cited; no test runs more than one step. `witness_<Name>` meets the hypotheses of `Obligations.<Name>`, clause by
clause, at values on the boundary of each range. -/

namespace Sys2Proof.Tests

open Sys2Proof.Machine

/-! ## Small states -/

/-- A running machine with the default parameters that has written x[1] = -128, x[3] = 7 and a true flag. -/
def demo : State := ((State.reset.writeReg 1 (-128)).writeReg 3 7).setFlag true

/-- A running machine with the other value of every parameter: registers zero, flag false, comparands registers, and a
tick limit of 0. -/
def other : State := { State.reset with params := ⟨.zero, .isFalse, .register, some 0⟩ }

/-- `demo` with type-1 comparands read as registers. -/
def demoCmp : State := { demo with params := { defaultParams with cmpType1 := .register } }

/-- The state a completed instruction leaves, with every field read through one projection. -/
def after {α : Type} (o : Host.Outcome State Fault Refusal) (f : State → α) : Option α := (nextState? o).map f

/-! ## Well-formedness: one ill-formed term for each check -/

theorem test_illFormed_opcode : Fields.wellFormed ⟨11, 0, 0, 0⟩ = false := by decide
theorem test_wellFormed_opcode : Fields.wellFormed ⟨10, 15, 3, 0xFF⟩ = true := by decide
theorem test_illFormed_highBit : wordHighBitsClear 0x00040001#32 = false := by decide
theorem test_illFormed_wordOpcode : wordOpcodeUsed 0x0002C000#32 = false := by decide
theorem test_illFormed_word : wordWellFormed 0x80004001#32 = false ∧ wordWellFormed 0x0003FFFF#32 = false := by decide
theorem test_wellFormed_word : wordWellFormed 0x0002BFFF#32 = true := by decide

/-! ## Decoding: one word of each instruction, the fields written out from R80 and R90 (31..18, op, reg, typ, opnd) -/

theorem test_decode_prt : decodeWord 0b00000000000000_0000_0101_10_10011001#32 = .ok (.prt 5 2 0x99) := by decide
theorem test_decode_set : decodeWord 0b00000000000000_0001_0010_00_11111111#32 = .ok (.set 2 0 0xFF) := by decide
theorem test_decode_add : decodeWord 0b00000000000000_0010_0001_01_00000001#32 = .ok (.add 1 1 1) := by decide
theorem test_decode_sub : decodeWord 0b00000000000000_0011_0011_01_00000011#32 = .ok (.sub 3 1 3) := by decide
theorem test_decode_mul : decodeWord 0b00000000000000_0100_0000_00_10000001#32 = .ok (.mul 0 0 0x81) := by decide
theorem test_decode_div : decodeWord 0b00000000000000_0101_0010_01_00000010#32 = .ok (.div 2 1 2) := by decide
theorem test_decode_jmp : decodeWord 0b00000000000000_0110_0111_11_00000101#32 = .ok (.jmp 7 3 5) := by decide
theorem test_decode_jnp : decodeWord 0b00000000000000_0111_0000_00_00000101#32 = .ok (.jnp 0 0 5) := by decide
theorem test_decode_eql : decodeWord 0b00000000000000_1000_0001_01_00000010#32 = .ok (.eql 1 1 2) := by decide
theorem test_decode_cbp : decodeWord 0b00000000000000_1001_0000_00_01111111#32 = .ok (.cbp 0 0 0x7F) := by decide
theorem test_decode_clp : decodeWord 0b00000000000000_1010_1111_00_11111111#32 = .ok (.clp 15 0 0xFF) := by decide
theorem test_decode_illegal : decodeWord 0b00000000000000_1011_0000_00_00000000#32 = .error .illegalOpcode := by decide
theorem test_decode_malformed : decodeWord 0b00000000000001_1011_0000_00_00000000#32 = .error .malformedWord := by decide
theorem test_decode_truncated : decodeBytes [0, 0, 0x40] = .error .truncated := by decide
theorem test_decodeBytes_bigEndian :
    decodeBytes [0x00, 0x00, 0x40, 0x01, 0xAA] = .ok (.set 0 0 1, [0xAA]) := by decide
theorem test_decodeTableWord : decodeTableWord 32 0x00024003 = some (.cbp 0 0 3) := by decide
theorem test_decoder_block :
    decoder 0x0003FFFF#32 = ⟨⟨15, 15, 3, 0xFF⟩, -127, 255, true, false⟩ := by decide
theorem test_decoder_block_high : (decoder 0x00040001#32).hiOk = false := by decide

/-! ## The codec's encoder and the sign-magnitude bytes (section 2.1 of the vectors) -/

theorem test_encode_words :
    encode (.set 0 0 1) = 0x00004001#32 ∧ encode (.jmp 0 0 2) = 0x00018002#32 ∧
    encode (.clp 15 0 0xFF) = 0x0002BCFF#32 ∧ encodeFields ⟨15, 15, 3, 0xFF⟩ = 0x0003FFFF#32 := by decide
theorem test_smag : smag 0x80 = 0 ∧ smag 0x81 = -1 ∧ smag 0x83 = -3 ∧ smag 0xFF = -127 ∧ smag 0x7F = 127 := by decide
theorem test_smenc :
    smenc (-3) = some 0x83 ∧ smenc (-127) = some 0xFF ∧ smenc 127 = some 0x7F ∧ smenc 0 = some 0 ∧
    smenc 128 = none ∧ smenc (-128) = none := by decide

/-! ## Instructions: at most two each (section 2.2 of the vectors) -/

theorem test_prt_register : after (exec (.prt 1 2 0x99) demo) State.out = some [-128] := by decide
theorem test_prt_negativeZero : after (exec (.prt 0 0 0x80) demo) State.out = some [0] := by decide
theorem test_set_copies : after (exec (.set 4 1 1) demo) (fun t => (t.reg 4).toInt) = some (-128) := by decide
theorem test_set_outOfRange :
    after (exec (.set 0 1 16) demo) State.status =
      some (.faulted .registerOutOfRange (some 0) (some 0x00004110#32)) := by decide
theorem test_add_sameRegister : after (exec (.add 3 1 3) demo) (fun t => (t.reg 3).toInt) = some 14 := by decide
theorem test_add_overflow :
    after (exec (.add 1 0 0x81) demo) (fun t => (t.status, (t.reg 1).toInt, t.tick)) =
      some (.faulted .arithmeticOverflow (some 0) (some 0x00008481#32), -128, 0) := by decide
theorem test_sub_targetMinusSource : after (exec (.sub 3 0 5) demo) (fun t => (t.reg 3).toInt) = some 2 := by decide
theorem test_sub_self : after (exec (.sub 1 1 1) demo) (fun t => (t.reg 1).toInt) = some 0 := by decide
theorem test_mul_overflow :
    after (exec (.mul 1 0 0x81) demo) State.status =
      some (.faulted .arithmeticOverflow (some 0) (some 0x00010481#32)) := by decide
theorem test_mul_zero : after (exec (.mul 1 0 0) demo) (fun t => (t.reg 1).toInt) = some 0 := by decide
theorem test_div_truncates : after (exec (.div 3 0 0x82) demo) (fun t => (t.reg 3).toInt) = some (-3) := by decide
theorem test_div_zero :
    after (exec (.div 3 0 0x80) demo) State.status =
      some (.faulted .divideByZero (some 0) (some 0x00014C80#32)) := by decide
theorem test_jmp_unsigned : after (exec (.jmp 7 3 0x85) demo) State.pc = some 132 := by decide
theorem test_jmp_clamp : after (exec (.jmp 0 0 0) demo) State.pc = some 1 := by decide
theorem test_jnp_notTaken : after (exec (.jnp 0 0 5) demo) State.pc = some 1 := by decide
theorem test_jnp_unwritten :
    after (exec (.jnp 0 0 5) State.reset) State.status =
      some (.faulted .uninitializedFlag (some 0) (some 0x0001C005#32)) := by decide
theorem test_eql_literal : after (exec (.eql 3 1 7) demo) State.flag = some true := by decide
theorem test_eql_register : after (exec (.eql 3 1 1) demoCmp) State.flag = some false := by decide
theorem test_cbp_equal : after (exec (.cbp 3 0 7) demo) State.flag = some false := by decide
theorem test_cbp_signed : after (exec (.cbp 1 0 0xFF) demo) State.flag = some false := by decide
theorem test_clp_signed : after (exec (.clp 1 0 0xFF) demo) State.flag = some true := by decide
theorem test_clp_equal : after (exec (.clp 3 0 7) demo) State.flag = some false := by decide

/-! ## Priority, the sequencer and the load (sections 2.2 and 2.3 of the vectors) -/

theorem test_priority_range_first :
    after (exec (.add 0 1 0xC8) State.reset) State.status =
      some (.faulted .registerOutOfRange (some 0) (some 0x000081C8#32)) := by decide
theorem test_tickLimit_zero :
    after (exec (.prt 0 0 1) other) (fun t => (t.out, t.pc, t.tick, t.status)) = some ([1], 1, 1, .halted) := by decide
theorem test_step_empty : after (step State.reset) (fun t => (t.status, t.pc, t.tick)) = some (.halted, 0, 0) := by decide
theorem test_step_loads_and_runs :
    after (step (State.reset.withFetchWord 32 0x4005)) (fun t => ((t.reg 0).toInt, t.pc, t.tick, t.status)) =
      some (5, 1, 1, .running) := by decide
theorem test_construct_malformed :
    (State.construct defaultParams [0, 0, 0, 1, 0, 0]).status = .faulted .malformedArtifact none none := by decide
theorem test_construct_image :
    (State.construct defaultParams [0x00, 0x00, 0x40, 0x01, 0x80, 0x00, 0x00, 0x02]).program.fetch 1 =
      some 0x80000002#32 := by decide
theorem test_cause_codes :
    [Cause.malformedArtifact, .malformedWord, .illegalOpcode, .registerOutOfRange, .uninitializedRegister,
      .uninitializedFlag, .divideByZero, .arithmeticOverflow].map Cause.code = [1, 2, 3, 4, 5, 6, 7, 8] := by decide

/-! ## The assembler (section 2.4 of the vectors) -/

/-- The words of a text, or the error. -/
def words (lines : List String) : Except Asm.AsmError (List Word) :=
  match Asm.assembleWords (lines.map String.toList) with
  | .ok ws => .ok ws
  | .error e => .error e.error

theorem test_asm_label : words ["JMP #end", "#end", "PRT 1"] = .ok [0x00018002#32, 0x00000001#32] := by decide
theorem test_asm_forms :
    words ["SET $A $F", "; note", "", "PRT -0", "JMP $3 2 -7"] =
      .ok [0x0000690F#32, 0x00000000#32, 0x00018E87#32] := by decide
theorem test_asm_errors :
    words ["set $0 1"] = .error .wrongTokenCount ∧ words ["SET $0 -128"] = .error .operandOutOfRange ∧
    words ["SET $0 4 1"] = .error .invalidType ∧ words ["SET  $0 1"] = .error .unknownRegister := by decide
theorem test_asm_label_errors :
    words ["JMP #nowhere"] = .error .unknownLabel ∧ words ["#a", "#a"] = .error .duplicateLabel ∧
    words ["#"] = .error .invalidLabel := by decide

/-! ## Witnesses: the codec -/

theorem witness_FieldTuplesAndWordsRoundTrip : wordHighBitsClear 0x0003FFFF#32 = true := by decide

theorem witness_OpcodeFieldAloneSelects :
    0x00003FFF#32 &&& 0xFFFFC000#32 = 0x00000#32 ∧ 0x00007FFF#32 &&& 0xFFFFC000#32 = 0x04000#32 ∧
    0x0000BFFF#32 &&& 0xFFFFC000#32 = 0x08000#32 ∧ 0x0000FFFF#32 &&& 0xFFFFC000#32 = 0x0C000#32 ∧
    0x00013FFF#32 &&& 0xFFFFC000#32 = 0x10000#32 ∧ 0x00017FFF#32 &&& 0xFFFFC000#32 = 0x14000#32 ∧
    0x0001BFFF#32 &&& 0xFFFFC000#32 = 0x18000#32 ∧ 0x0001FFFF#32 &&& 0xFFFFC000#32 = 0x1C000#32 ∧
    0x00023FFF#32 &&& 0xFFFFC000#32 = 0x20000#32 ∧ 0x00027FFF#32 &&& 0xFFFFC000#32 = 0x24000#32 ∧
    0x0002BFFF#32 &&& 0xFFFFC000#32 = 0x28000#32 ∧
    (0x2C000 ≤ (0x0002C000#32 &&& 0xFFFFC000#32).toNat ∧ (0x0003FFFF#32 &&& 0xFFFFC000#32).toNat ≤ 0x3C000) := by
  decide

theorem witness_SignMagnitudeByteValue :
    (0x80#8).getLsbD 7 = true ∧ (0xFF#8).getLsbD 7 = true ∧ (0x7F#8).getLsbD 7 = false := by decide

theorem witness_LiteralByteEncoding :
    127 < (128 : Int).natAbs ∧ 127 < (-128 : Int).natAbs ∧ ((-127 : Int).natAbs ≤ 127 ∧ (-127 : Int) < 0) ∧
    ((127 : Int).natAbs ≤ 127 ∧ 0 ≤ (127 : Int)) ∧ ((0 : Int).natAbs ≤ 127 ∧ 0 ≤ (0 : Int)) ∧
    Asm.literal? "128".toList = some 128 ∧ Asm.literal? "-127".toList = some (-127) := by decide

theorem witness_SignMagnitudeLaws :
    (-127 ≤ (-127 : Int) ∧ (-127 : Int) ≤ 127) ∧ (-127 ≤ (127 : Int) ∧ (127 : Int) ≤ 127) ∧ 0x81#8 ≠ 0x80#8 := by
  decide

/-! ## Witnesses: the image, construction and the step -/

theorem witness_LoadBuildsBigEndianWords :
    [0x80, 0, 0, 2#8].length % 4 = 0 ∧ [0x80, 0, 0, 2#8][4 * 0]? = some 0x80 ∧
    [0x80, 0, 0, 2#8][4 * 0 + 1]? = some 0 ∧ [0x80, 0, 0, 2#8][4 * 0 + 2]? = some 0 ∧
    [0x80, 0, 0, 2#8][4 * 0 + 3]? = some 2 := by decide

theorem witness_MalformedArtifactNeverRuns : [0, 0, 0, 1, 0, 0#8].length % 4 ≠ 0 := by decide

theorem witness_FetchGivesTheWordOrNone :
    0 < (ProgramImage.ofBytes [0, 0, 0, 1]).length ∧ (ProgramImage.ofBytes [0, 0, 0, 1]).length ≤ 1 := by decide

theorem witness_ConstructionLeavesTheSpecState : ([] : List Byte).length % 4 = 0 := by decide

theorem witness_ReadsBeforeTheFirstWrite :
    ([] : List Byte).length % 4 = 0 ∧ other.params.regReset = .zero ∧ defaultParams.regReset = .unwritten ∧
    other.params.flagReset = .isFalse ∧ (⟨.zero, .isTrue, .literal, none⟩ : Params).flagReset = .isTrue ∧
    defaultParams.flagReset = .unwritten := by decide

theorem witness_StepRunsTheDecodedInstruction :
    (demo.withFetchWord 32 0x00E00).status = .running ∧
    (demo.withFetchWord 32 0x00E00).program.fetch (demo.withFetchWord 32 0x00E00).pc = some 0x00000E00#32 ∧
    decodeWord 0x00000E00#32 = .ok (.prt 3 2 0) := by decide

theorem witness_StepPastTheEndHalts :
    State.reset.status = .running ∧ State.reset.program.length ≤ State.reset.pc := by decide

theorem witness_StepFaultsOnWordsThatAreNoInstruction :
    ((demo.withFetchWord 32 0x40001).status = .running ∧
      (demo.withFetchWord 32 0x40001).program.fetch (demo.withFetchWord 32 0x40001).pc = some 0x00040001#32 ∧
      (0x00040001#32).extractLsb' 18 14 ≠ 0#14) ∧
    ((demo.withFetchWord 32 0x2C000).program.fetch (demo.withFetchWord 32 0x2C000).pc = some 0x0002C000#32 ∧
      (0x0002C000#32).extractLsb' 18 14 = 0#14 ∧ 10 < ((0x0002C000#32).extractLsb' 14 4).toNat) := by decide

theorem witness_TerminalStatusHasNoStep :
    demo.halt.status = .halted ∧
    (demo.raise .divideByZero 0).status = .faulted .divideByZero (some 0) (some 0) := by decide

/-! ## Witnesses: the instructions -/

theorem witness_PrintFollowsItsType :
    demo.holds 1 (-128) ∧ demo.holds 3 7 ∧ other.holds 15 0 ∧ demo.unreadable 0 := by decide

theorem witness_SetWritesItsOperand :
    sourceOutOfRange 1 16 ∧ sourceOutOfRange 1 0x80 ∧ demo.sourceUnreadable 1 15 ∧ demo.sourceHolds 1 1 (-128) ∧
    demo.sourceHolds 3 0xFF (-127) ∧ other.sourceHolds 1 15 0 := by decide

theorem witness_AddWritesTheExactSum :
    sourceOutOfRange 1 16 ∧ (¬ sourceOutOfRange 1 15 ∧ demo.unreadable 0) ∧
    (demo.holds 3 7 ∧ demo.sourceUnreadable 1 15) ∧
    (demo.holds 1 (-128) ∧ demo.sourceHolds 0 0x81 (-1) ∧ ¬ InByteRange (-128 + -1)) ∧
    (demo.holds 3 7 ∧ demo.sourceHolds 0 120 120 ∧ InByteRange (7 + 120)) := by decide

theorem witness_SubWritesTheExactDifference :
    sourceOutOfRange 1 16 ∧ (¬ sourceOutOfRange 1 15 ∧ demo.unreadable 0) ∧
    (demo.holds 3 7 ∧ demo.sourceUnreadable 1 15) ∧
    (demo.holds 3 7 ∧ demo.sourceHolds 1 1 (-128) ∧ ¬ InByteRange (7 - -128)) ∧
    (demo.holds 1 (-128) ∧ demo.sourceHolds 1 1 (-128) ∧ InByteRange (-128 - -128)) := by decide

theorem witness_MulWritesTheExactProduct :
    sourceOutOfRange 1 16 ∧ (¬ sourceOutOfRange 1 15 ∧ demo.unreadable 0) ∧
    (demo.holds 3 7 ∧ demo.sourceUnreadable 1 15) ∧
    (demo.holds 1 (-128) ∧ demo.sourceHolds 0 0x81 (-1) ∧ ¬ InByteRange (-128 * -1)) ∧
    (demo.holds 1 (-128) ∧ demo.sourceHolds 0 1 1 ∧ InByteRange (-128 * 1)) := by decide

theorem witness_DivWritesTheTruncatedQuotient :
    sourceOutOfRange 1 16 ∧ (¬ sourceOutOfRange 1 15 ∧ demo.unreadable 0) ∧
    (demo.holds 3 7 ∧ demo.sourceUnreadable 1 15) ∧ (demo.holds 3 7 ∧ demo.sourceHolds 0 0x80 0) ∧
    (demo.holds 1 (-128) ∧ demo.sourceHolds 0 0x81 (-1)) ∧
    (demo.holds 1 (-128) ∧ demo.sourceHolds 0 1 1 ∧ (1 : Int) ≠ 0 ∧ ¬ ((-128 : Int) = -128 ∧ (1 : Int) = -1)) := by
  decide

theorem witness_QuotientRoundsTowardZero : (-2 : Int) ≠ 0 ∧ 0 ≤ (7 : Int) ∧ (-7 : Int) ≤ 0 := by decide

theorem witness_JmpIsTakenWhenTheFlagIsSet :
    demo.flagHolds true ∧ other.flagHolds false ∧ State.reset.flagUnreadable := by decide

theorem witness_JnpIsTakenWhenTheFlagIsClear :
    other.flagHolds false ∧ demo.flagHolds true ∧ State.reset.flagUnreadable := by decide

theorem witness_BranchLandings : (0#8).toNat ≤ 2 ∧ (2#8).toNat ≤ 2 ∧ 2 ≤ (2#8).toNat ∧ 2 ≤ (0xFF#8).toNat := by decide

theorem witness_EqlSetsTheFlagOnEquality :
    (demoCmp.comparesRegister 1 ∧ 16 ≤ (16#8).toNat) ∧
    (demoCmp.comparesRegister 1 ∧ (15#8).toNat < 16 ∧ demoCmp.unreadable (BitVec.ofNat 4 (15#8).toNat)) ∧
    (demo.comparandHolds 1 7 7 ∧ demo.unreadable 0) ∧ (demoCmp.comparandHolds 1 1 (-128) ∧ demoCmp.holds 3 7) ∧
    (demo.comparandHolds 1 0xFF (-127) ∧ demo.holds 1 (-128)) := by decide

theorem witness_CbpSetsTheFlagOnGreater :
    (demoCmp.comparesRegister 1 ∧ 16 ≤ (0xFF#8).toNat) ∧
    (demoCmp.comparesRegister 1 ∧ (0#8).toNat < 16 ∧ demoCmp.unreadable (BitVec.ofNat 4 (0#8).toNat)) ∧
    (demo.comparandHolds 0 0x80 0 ∧ demo.unreadable 15) ∧ (other.comparandHolds 1 15 0 ∧ other.holds 0 0) := by decide

theorem witness_ClpSetsTheFlagOnLess :
    (demoCmp.comparesRegister 1 ∧ 16 ≤ (0x80#8).toNat) ∧
    (demoCmp.comparesRegister 1 ∧ (2#8).toNat < 16 ∧ demoCmp.unreadable (BitVec.ofNat 4 (2#8).toNat)) ∧
    (demo.comparandHolds 2 0x7F 127 ∧ demo.unreadable 2) ∧ (demo.comparandHolds 3 0x7F 127 ∧ demo.holds 3 7) := by decide

/-! ## Witnesses: rules of the whole machine -/

/-- A print of an unwritten register takes its fault; it meets the hypotheses of `FaultsCommitNothing` and
`CausesPerInstruction`. -/
theorem witness_FaultsCommitNothing :
    State.reset.status = .running ∧
    exec (.prt 4 2 0) State.reset = .next (State.reset.raise .uninitializedRegister 0x1200) ∧
    (State.reset.raise .uninitializedRegister 0x1200).status =
      .faulted .uninitializedRegister (some 0) (some 0x1200) := ⟨rfl, rfl, rfl⟩

theorem witness_CausesPerInstruction :
    demo.status = .running ∧ exec (.div 3 0 0) demo = .next (demo.raise .divideByZero 0x14C00) ∧
    (demo.raise .divideByZero 0x14C00).status = .faulted .divideByZero (some 0) (some 0x14C00) := ⟨rfl, rfl, rfl⟩

theorem witness_OnlyComparisonsWriteTheFlag :
    (∃ t, exec (.jmp 0 0 5) demo = .next t ∧ isComparison (.jmp 0 0 5) = false) ∧
    (∃ t, exec (.eql 3 0 7) demo = .next t ∧ isComparison (.eql 3 0 7) = true ∧ demo.status = .running ∧
      t.status.isFault = false) := ⟨⟨_, rfl, rfl⟩, ⟨_, rfl, rfl, rfl, rfl⟩⟩

theorem witness_RegisterWritesStayInTheTarget :
    InByteRange (-128) ∧ InByteRange 127 ∧
    (∃ t, exec (.clp 3 0 7) demo = .next t ∧ writesRegister (.clp 3 0 7) = none) ∧
    (∃ t, exec (.sub 3 0 7) demo = .next t ∧ writesRegister (.sub 3 0 7) = some 3 ∧ (4 : RegIdx) ≠ 3) :=
  ⟨by decide, by decide, ⟨_, rfl, rfl⟩, ⟨_, rfl, rfl, by decide⟩⟩

theorem witness_OnlyPrintAppends :
    ∃ t, exec (.set 0 0 1) State.reset = .next t ∧ isPrint (.set 0 0 1) = false := ⟨_, rfl, rfl⟩

theorem witness_StepsKeepProgramAndParameters : ∃ t, step (demo.withFetchWord 32 0x4005) = .next t := ⟨_, rfl⟩

theorem witness_PcFollowsSequenceOrLanding :
    (∃ t, demo.status = .running ∧ exec (.jmp 0 0 2) demo = .next t ∧ t.status.isFault = false ∧
      takenOperand demo (.jmp 0 0 2) = some 2) ∧
    (∃ t, exec (.jnp 0 0 2) demo = .next t ∧ t.status.isFault = false ∧ takenOperand demo (.jnp 0 0 2) = none) ∧
    (∃ t u, exec (.add 3 0 1) demo = .next t ∧ exec (.add 3 0 1) { demo with pc := 9 } = .next u) ∧
    (∃ t u, exec (.div 3 0 0) demo = .next t ∧ exec (.div 3 0 0) { demo with pc := 9 } = .next u ∧
      t.status = .faulted .divideByZero (some 0) (some (encode (.div 3 0 0)))) :=
  ⟨⟨_, rfl, rfl, rfl, by decide⟩, ⟨_, rfl, rfl, by decide⟩, ⟨_, _, rfl, rfl⟩, ⟨_, _, rfl, rfl, by decide⟩⟩

theorem witness_TickCountsCompletions :
    (∃ t, demo.status = .running ∧ exec (.prt 0 1 0) demo = .next t ∧ t.status.isFault = false) ∧
    (∃ t, exec (.prt 0 2 0) demo = .next t ∧ t.status.isFault = true) ∧
    (∃ t u, exec (.prt 0 1 0) demo = .next t ∧ exec (.prt 0 1 0) { demo with tick := 9 } = .next u) :=
  ⟨⟨_, rfl, rfl, rfl⟩, ⟨_, rfl, rfl⟩, ⟨_, _, rfl, rfl⟩⟩

theorem witness_TickLimitHaltsAfterCompletion :
    (∃ t, other.status = .running ∧ exec (.prt 0 0 1) other = .next t ∧ t.status.isFault = false ∧
      other.params.tickLimit = some 0) ∧
    (∃ t, demo.status = .running ∧ exec (.prt 0 0 1) demo = .next t ∧ t.status.isFault = false) :=
  ⟨⟨_, rfl, rfl, rfl, rfl⟩, ⟨_, rfl, rfl, rfl⟩⟩

theorem witness_WrittenBitsStaySet :
    (∃ t, step (demo.withFetchWord 32 0x4005) = .next t) ∧ (demo.withFetchWord 32 0x4005).regWritten 3 = true ∧
    (demo.withFetchWord 32 0x4005).flagWritten = true := ⟨⟨_, rfl⟩, by decide, by decide⟩

theorem witness_IgnoredFieldsHaveNoEffect :
    ((0 : TypeTag) ≠ 1#2 ∧ (3 : TypeTag) ≠ 1#2) ∧ demo.params.cmpType1 = .literal ∧
    (demoCmp.params.cmpType1 ≠ .literal ∧ (0 : TypeTag) ≠ 1#2 ∧ (2 : TypeTag) ≠ 1#2) := by decide

/-! ## Witnesses: the invariant, runs, agreement and the toolchain -/

/-- A machine that has completed one PRT of the program `PRT 1; PRT 2`, under a tick limit of 1. -/
def midRun : State :=
  { State.construct ⟨.unwritten, .unwritten, .literal, some 1⟩ [0, 0, 0, 1, 0, 0, 0, 2] with
    pc := 1, tick := 1, out := [1] }

theorem witness_StepsKeepTheInvariant : midRun.Inv ∧ ∃ t, step midRun = .next t := by
  refine ⟨⟨?_, by decide, by decide, ?_, ?_, nofun, nofun⟩, ⟨_, rfl⟩⟩
  · intro v hv
    cases hv with
    | head => decide
    | tail _ h => cases h
  · intro l h _
    cases h
    decide
  · intro l h
    cases h
    decide

theorem witness_LimitedRunsEnd : (⟨.unwritten, .unwritten, .literal, some 0⟩ : Params).tickLimit = some 0 := rfl

/-- Two different states that agree where written: the bits behind the unwritten flag and an unwritten register differ. -/
theorem witness_UnwrittenBitsAreNeverSeen :
    let t : State := { State.reset with flag := true, regs := State.reset.regs.set 5 9 (by decide) }
    State.reset.AgreeWhereWritten t ∧ State.reset ≠ t :=
  ⟨⟨rfl, by decide, rfl, by decide, rfl, rfl, rfl, rfl, rfl, rfl⟩, by decide⟩

/-- A reference inside a line with text after it, before another reference, and one to no entry. -/
theorem witness_LabelOffsetContract_reference :
    ('#' ∉ "JMP ".toList ∧ "end".toList ≠ [] ∧ "end".toList.all Asm.isWordChar = true) ∧
    ((∀ c, "".toList.head? = some c → Asm.isWordChar c = false) ∧
      (∀ c, "#a".toList.head? = some c → Asm.isWordChar c = false)) ∧
    List.lookup "end".toList [("end".toList, 0)] = some 0 ∧
    List.lookup "end".toList [("a".toList, 1)] = none := by
  refine ⟨by decide, ⟨fun c h => ?_, fun c h => ?_⟩, by decide, by decide⟩
  · cases h
  · cases h; rfl

/-- A text whose label has one instruction before it, named by a jump before and a jump after it. -/
theorem witness_LabelOffsetContract_text :
    Asm.collect (["; c".toList, "JMP #l".toList] ++ "#l".toList :: ["JNP #l".toList]) 0 [] =
      .ok ([("l".toList, 1)], ["JMP #l".toList, "JNP #l".toList]) ∧
    Asm.assembleWords (["; c".toList, "JMP #l".toList] ++ "#l".toList :: ["JNP #l".toList]) =
      .ok [0x00018002#32, 0x0001C002#32] ∧
    (Asm.retained ["; c".toList, "JMP #l".toList] ++ Asm.retained ["JNP #l".toList])[0]? =
      some ("JMP #".toList ++ "l".toList) ∧
    (Asm.retained ["; c".toList, "JMP #l".toList] ++ Asm.retained ["JNP #l".toList])[1]? =
      some ("JNP #".toList ++ "l".toList) ∧
    (0 ≤ 126 ∧ 126 ≤ 126 ∧ 127 ≤ 127) := by decide

/-- A label before the first instruction: the contract's boundary `k = 0`. -/
theorem witness_LabelOffsetContract_first :
    Asm.assembleWords ([] ++ "#l".toList :: ["JMP #l".toList]) = .ok [0x00018001#32] ∧
    (Asm.retained [] ++ Asm.retained ["JMP #l".toList])[0]? = some ("JMP #".toList ++ "l".toList) := by decide

theorem witness_AssembledWordsAreInstructions :
    Asm.assemble ["PRT 12"] = .ok [0, 0, 0, 0x0C] ∧
    (ProgramImage.ofBytes [0, 0, 0, 0x0C]).fetch 0 = some 0x0000000C#32 := by decide

theorem witness_ShortFormsAreFullForms :
    Asm.isRegisterRef "5".toList = false ∧ Asm.isRegisterRef "$5".toList = true ∧
    "SET".toList ∈ ["SET".toList, "ADD".toList, "SUB".toList, "MUL".toList, "DIV".toList, "EQL".toList, "CBP".toList,
      "CLP".toList] ∧
    Asm.register? "$0".toList = some 0 ∧ Asm.register? "$F".toList = some 15 ∧
    Asm.mnemonics.lookup "SET".toList = some 1 ∧
    (Asm.isRegisterRef "$g".toList = true ∧ Asm.register? "$g".toList = none) ∧
    Asm.register? "0".toList = none := by decide

end Sys2Proof.Tests
end

section
/-! PROOFS. Register writes (10_state.md R32): what a write and a completed rule do to the registers, and with them what
every instruction does. -/

namespace Sys2Proof.Machine

/-- A register write sets its register alone (R32). -/
theorem wroteOnly_writeReg (s : State) (r : RegIdx) {v : Int} (hv : InByteRange v) : s.wroteOnly (s.writeReg r v) r v := by
  refine ⟨?_, ?_, fun q hq => ?_⟩
  · rw [reg_writeReg, if_pos rfl, toInt_ofInt_of_inByteRange hv]
  · rw [regWritten_writeReg, if_pos rfl]
  · rw [reg_writeReg, regWritten_writeReg, if_neg hq, if_neg hq]
    exact ⟨rfl, rfl⟩

/-- A completed rule of PRT, JMP, JNP, EQL, CBP or CLP writes no register. -/
theorem effect_ok_sameRegisters {i : Instr} {s u : State} (hw : writesRegister i = none) (h : effect i s = .ok u) :
    s.sameRegisters u := by
  have hs := effect_ok_shape h
  cases i with
  | prt r t n => rcases hs with rfl | ⟨v, -, rfl⟩ <;> exact ⟨rfl, rfl⟩
  | set r t n | add r t n | sub r t n | mul r t n | div r t n => cases hw
  | jmp r t n | jnp r t n => obtain ⟨f, -, rfl⟩ := hs; exact ⟨rfl, rfl⟩
  | eql r t n | cbp r t n | clp r t n => obtain ⟨b, rfl⟩ := hs; exact ⟨rfl, rfl⟩

/-- A completed rule of SET, ADD, SUB, MUL or DIV is one register write, of a value in range, and the next `pc`. -/
theorem effect_ok_writeReg {i : Instr} {s u : State} {r : RegIdx} (hw : writesRegister i = some r)
    (h : effect i s = .ok u) : ∃ v, InByteRange v ∧ u = (s.writeReg r v).advance := by
  have hs := effect_ok_shape h
  cases i with
  | set _ t n | add _ t n | sub _ t n | mul _ t n | div _ t n => cases hw; exact hs
  | prt _ t n | jmp _ t n | jnp _ t n | eql _ t n | cbp _ t n | clp _ t n => cases hw

/-- PRT, JMP, JNP, EQL, CBP and CLP write no register, completed or not: a fault commits nothing. -/
theorem exec_sameRegisters {i : Instr} {s t : State} (hw : writesRegister i = none) (h : exec i s = .next t) :
    s.sameRegisters t := by
  rcases (exec_next_iff i s t).1 h with ⟨u, hu, rfl⟩ | ⟨c, -, rfl⟩
  · have hsame : s.sameRegisters u := effect_ok_sameRegisters hw hu
    exact hsame
  · exact ⟨rfl, rfl⟩

/-- SET, ADD, SUB, MUL and DIV write one value in range to their target and to no other register, or fault and write
none. -/
theorem exec_wroteOnly_or_sameRegisters {i : Instr} {s t : State} {r : RegIdx} (hw : writesRegister i = some r)
    (h : exec i s = .next t) : (∃ v, InByteRange v ∧ s.wroteOnly t r v) ∨ s.sameRegisters t := by
  rcases (exec_next_iff i s t).1 h with ⟨u, hu, rfl⟩ | ⟨c, -, rfl⟩
  · obtain ⟨v, hv, rfl⟩ := effect_ok_writeReg hw hu
    exact .inl ⟨v, hv, wroteOnly_writeReg s r hv⟩
  · exact .inr ⟨rfl, rfl⟩

/-- Equal register files answer every register with the same bits and the same written bit. -/
theorem reg_eq_of_sameRegisters {s t : State} (h : s.sameRegisters t) (q : RegIdx) :
    t.reg q = s.reg q ∧ t.regWritten q = s.regWritten q := by
  obtain ⟨hregs, hwritten⟩ := h
  simp only [State.reg, State.regWritten, hregs, hwritten, and_self]

/-- Settles O37: a completed rule is one write in range to its target or no register write at all, and a fault is
taken on the state before. -/
theorem registerWritesStayInTheTarget : Obligations.RegisterWritesStayInTheTarget := by
  refine ⟨fun s r v hv => wroteOnly_writeReg s r hv, fun i s t h => ⟨fun hw => exec_sameRegisters hw h, fun r hw => ?_⟩⟩
  rcases exec_wroteOnly_or_sameRegisters hw h with ⟨v, hv, hreg, -, hframe⟩ | hsame
  · exact ⟨hframe, hreg ▸ hv⟩
  · exact ⟨fun q _ => reg_eq_of_sameRegisters hsame q, inByteRange_toInt _⟩

end Sys2Proof.Machine
end

section
/-! PROOFS. The fetch of a program image (20_memory.md R62, R64, R67): where a byte and a word exist, and what they are. -/

namespace Sys2Proof.Machine

/-- A byte below the image's end is the byte its cells hold (R67). -/
theorem readByte_of_lt {p : ProgramImage} {a : Nat} (h : a < 4 * p.length) :
    p.readByte a = some (cellsRead p.cells a) := if_pos h

/-- A fetch below the program length gives the whole word, its four bytes most-significant first (R62, R64). -/
theorem fetch_of_lt {p : ProgramImage} {i : Nat} (h : i < p.length) :
    p.fetch i = some (cellsRead p.cells (4 * i) ++ cellsRead p.cells (4 * i + 1) ++
      cellsRead p.cells (4 * i + 2) ++ cellsRead p.cells (4 * i + 3)) := if_pos h

/-- A fetch at or above the program length gives none (R64). -/
theorem fetch_of_length_le {p : ProgramImage} {i : Nat} (h : p.length ≤ i) : p.fetch i = none :=
  if_neg (Nat.not_lt.2 h)

/-- Settles O13: below the length all four bytes of word `i` lie inside the image and the fetch concatenates them. -/
theorem fetchGivesTheWordOrNone : Obligations.FetchGivesTheWordOrNone := by
  refine fun p i => ⟨fun h => ?_, fetch_of_length_le⟩
  have hbyte : ∀ k < 4, p.readByte (4 * i + k) = some (cellsRead p.cells (4 * i + k)) :=
    fun k hk => readByte_of_lt (by omega)
  exact ⟨_, _, _, _, hbyte 0 (by decide), hbyte 1 (by decide), hbyte 2 (by decide), hbyte 3 (by decide),
    fetch_of_lt h⟩

end Sys2Proof.Machine
end

section
/-! PROOFS. The field codec (30_encoding.md R82, R84) as arithmetic: each field is a digit of the word. -/

namespace Sys2Proof

/-- A field shifted to bit `n` counts `2 ^ n` times its value (R82). -/
theorem toNat_placedField {k : Nat} (x : BitVec k) (n : Nat) (hk : k + n ≤ 32) :
    (x.setWidth 32 <<< n).toNat = x.toNat * 2 ^ n := by
  have hx : x.toNat < 2 ^ k := x.isLt
  have hfit : x.toNat * 2 ^ n < 2 ^ 32 := calc
    x.toNat * 2 ^ n < 2 ^ k * 2 ^ n := Nat.mul_lt_mul_of_pos_right hx (Nat.two_pow_pos n)
    _ = 2 ^ (k + n) := (Nat.pow_add 2 k n).symm
    _ ≤ 2 ^ 32 := Nat.pow_le_pow_right (by decide) hk
  rw [BitVec.toNat_shiftLeft, BitVec.toNat_setWidth_of_le (by omega), Nat.shiftLeft_eq, Nat.mod_eq_of_lt hfit]

/-- An OR with a field placed above all set bits of the rest is a sum (R82). -/
theorem toNat_placedField_or {k : Nat} (x : BitVec k) (rest : Word) (n : Nat) (hk : k + n ≤ 32)
    (hrest : rest.toNat < 2 ^ n) : (x.setWidth 32 <<< n ||| rest).toNat = x.toNat * 2 ^ n + rest.toNat := by
  rw [BitVec.toNat_or, toNat_placedField x n hk, Nat.mul_comm, Nat.two_pow_add_eq_or_of_lt hrest]

/-- The encoded word as a number: no two fields meet in a bit. -/
theorem toNat_encodeFields (f : Fields) :
    (encodeFields f).toNat =
      f.op.toNat * 2 ^ 14 + f.reg.toNat * 2 ^ 10 + f.typ.toNat * 2 ^ 8 + f.opnd.toNat := by
  have hreg := f.reg.isLt
  have htyp := f.typ.isLt
  have hopnd := f.opnd.isLt
  have h8 : (f.opnd.setWidth 32).toNat = f.opnd.toNat := BitVec.toNat_setWidth_of_le (by decide)
  have h10 := toNat_placedField_or f.typ (f.opnd.setWidth 32) 8 (by decide) (by omega)
  have h14 := toNat_placedField_or f.reg _ 10 (by decide) (by rw [h10]; omega)
  have h18 := toNat_placedField_or f.op _ 14 (by decide) (by rw [h14, h10]; omega)
  rw [encodeFields, BitVec.or_assoc, BitVec.or_assoc, h18, h14, h10, h8]
  omega

/-- Settles O2: the sum is below `2 ^ 18`, so no bit of 31..18 is set. -/
theorem fieldEncoderPlacesEachField : Obligations.FieldEncoderPlacesEachField := by
  refine fun f => ⟨toNat_encodeFields f, BitVec.eq_of_toNat_eq ?_⟩
  have hop := f.op.isLt
  have hreg := f.reg.isLt
  have htyp := f.typ.isLt
  have hopnd := f.opnd.isLt
  rw [BitVec.extractLsb'_toNat, Nat.shiftRight_eq_div_pow, toNat_encodeFields, Nat.div_eq_of_lt (by omega)]
  rfl

/-- A mask whose set bits are the `k` bits from `n` on takes the digit at those bits off a word (R84). -/
theorem toNat_maskedField (w mask : Word) (n k : Nat) (hmask : mask.toNat >>> n = 2 ^ k - 1) :
    (((w &&& mask) >>> n).setWidth k).toNat = w.toNat / 2 ^ n % 2 ^ k := by
  rw [BitVec.toNat_setWidth, BitVec.toNat_ushiftRight, BitVec.toNat_and, Nat.shiftRight_and_distrib, hmask,
    Nat.and_two_pow_sub_one_eq_mod, Nat.mod_mod, Nat.shiftRight_eq_div_pow]

/-- The decoded opcode is bits 17..14 (R84). -/
@[simp] theorem toNat_decodeFields_op (w : Word) : (decodeFields w).op.toNat = w.toNat / 2 ^ 14 % 2 ^ 4 :=
  toNat_maskedField w 0x3C000#32 14 4 rfl

/-- The decoded register is bits 13..10 (R84). -/
@[simp] theorem toNat_decodeFields_reg (w : Word) : (decodeFields w).reg.toNat = w.toNat / 2 ^ 10 % 2 ^ 4 :=
  toNat_maskedField w 0x03C00#32 10 4 rfl

/-- The decoded type is bits 9..8 (R84). -/
@[simp] theorem toNat_decodeFields_typ (w : Word) : (decodeFields w).typ.toNat = w.toNat / 2 ^ 8 % 2 ^ 2 :=
  toNat_maskedField w 0x00300#32 8 2 rfl

/-- The decoded operand is bits 7..0 (R84). -/
@[simp] theorem toNat_decodeFields_opnd (w : Word) : (decodeFields w).opnd.toNat = w.toNat % 2 ^ 8 := by
  have h := toNat_maskedField w 0x000FF#32 0 8 rfl
  simpa [decodeFields] using h

/-- Settles O3: each field is the digit its mask takes off the word. -/
theorem fieldDecoderSplitsEveryWord : Obligations.FieldDecoderSplitsEveryWord := fun w =>
  ⟨toNat_decodeFields_op w, toNat_decodeFields_reg w, toNat_decodeFields_typ w, toNat_decodeFields_opnd w⟩

end Sys2Proof
end

section
/-! PROOFS. The selection of an instruction (30_encoding.md R90, R94, R95): the bits 31..14 of a word decide it. -/

namespace Sys2Proof

/-- R90's mask keeps bits 31..14 in their place. -/
theorem toNat_and_selectMask (w : Word) : (w &&& 0xFFFFC000#32).toNat = w.toNat / 2 ^ 14 * 2 ^ 14 := by
  have hmask : 0xFFFFC000#32 = BitVec.allOnes 32 <<< 14 := rfl
  rw [hmask, ← BitVec.shiftLeft_ushiftRight, BitVec.toNat_shiftLeft, BitVec.toNat_ushiftRight,
    Nat.shiftRight_eq_div_pow, Nat.shiftLeft_eq]
  omega

/-- The check of the high bits as arithmetic (R85, R95). -/
theorem hiOk_iff (w : Word) : hiOk w = true ↔ w.toNat < 2 ^ 18 := by
  rw [hiOk, beq_iff_eq, ← BitVec.toNat_inj, BitVec.toNat_ushiftRight, Nat.shiftRight_eq_div_pow]
  simp [Nat.div_eq_zero_iff]

/-- A word whose bits 31..14 are an opcode passes the check of the high bits and has that opcode. -/
theorem hiOk_and_op_of_masked_eq {w : Word} (op : BitVec 4) (h : w &&& 0xFFFFC000#32 = op.setWidth 32 <<< 14) :
    hiOk w = true ∧ (decodeFields w).op = op := by
  have hop := op.isLt
  have hbits := congrArg BitVec.toNat h
  rw [toNat_and_selectMask, toNat_placedField op 14 (by decide)] at hbits
  refine ⟨(hiOk_iff w).2 (by omega), BitVec.eq_of_toNat_eq ?_⟩
  rw [toNat_decodeFields_op]
  omega

/-- The opcodes 11..15 name no instruction (R94). -/
theorem instrOfFields_eq_none {f : Fields} (h : 10 < f.op.toNat) : instrOfFields f = none := by
  unfold instrOfFields
  split
  case h_12 => rfl
  all_goals omega

/-- The opcode in bits 31..14 selects the instruction; register, type and operand are the word's own fields (R90). -/
theorem decodeWord_of_masked_eq {w : Word} {i : Instr} (op : BitVec 4)
    (h : w &&& 0xFFFFC000#32 = op.setWidth 32 <<< 14)
    (hi : instrOfFields { decodeFields w with op := op } = some i) : decodeWord w = .ok i := by
  obtain ⟨hhigh, rfl⟩ := hiOk_and_op_of_masked_eq op h
  simp only [decodeWord, hhigh, if_true, hi]

/-- A word that passes the check of the high bits and whose opcode is above 10 is illegal (R94). -/
theorem decodeWord_of_op_gt {w : Word} (hhigh : hiOk w = true) (hop : 10 < (decodeFields w).op.toNat) :
    decodeWord w = .error .illegalOpcode := by
  simp only [decodeWord, hhigh, if_true, instrOfFields_eq_none hop]

/-- Settles O5: each match value is its opcode in bits 17..14, and the values 0x2C000..0x3C000 are the opcodes 11..15. -/
theorem opcodeFieldAloneSelects : Obligations.OpcodeFieldAloneSelects := by
  refine fun w => ⟨fun h => decodeWord_of_masked_eq 0 h rfl, fun h => decodeWord_of_masked_eq 1 h rfl,
    fun h => decodeWord_of_masked_eq 2 h rfl, fun h => decodeWord_of_masked_eq 3 h rfl,
    fun h => decodeWord_of_masked_eq 4 h rfl, fun h => decodeWord_of_masked_eq 5 h rfl,
    fun h => decodeWord_of_masked_eq 6 h rfl, fun h => decodeWord_of_masked_eq 7 h rfl,
    fun h => decodeWord_of_masked_eq 8 h rfl, fun h => decodeWord_of_masked_eq 9 h rfl,
    fun h => decodeWord_of_masked_eq 10 h rfl, fun hlo hhi => ?_⟩
  rw [toNat_and_selectMask] at hlo hhi
  exact decodeWord_of_op_gt ((hiOk_iff w).2 (by omega)) (by rw [toNat_decodeFields_op]; omega)

end Sys2Proof
end

section
/-! PROOFS. Sign-magnitude operands (30_encoding.md R87, R88): the value of a byte and the byte of a literal. -/

namespace Sys2Proof

/-- The magnitude of a byte as arithmetic (R87). -/
theorem toNat_and_magnitudeMask (b : Byte) : (b &&& 0x7F#8).toNat = b.toNat % 128 := by
  rw [BitVec.toNat_and]
  exact Nat.and_two_pow_sub_one_eq_mod b.toNat 7

/-- The value of a byte with bit 7 set (R87). -/
theorem smag_of_sign_set {b : Byte} (h : b.getLsbD 7 = true) : smag b = -((b.toNat % 128 : Nat) : Int) := by
  rw [smag, if_pos h, toNat_and_magnitudeMask]

/-- The value of a byte with bit 7 clear (R87). -/
theorem smag_of_sign_clear {b : Byte} (h : b.getLsbD 7 = false) : smag b = ((b.toNat % 128 : Nat) : Int) := by
  rw [smag, if_neg (ne_true_of_eq_false h), toNat_and_magnitudeMask]

/-- Settles O8: the value by the sign bit, and the range that every value keeps. -/
theorem signMagnitudeByteValue : Obligations.SignMagnitudeByteValue := by
  intro b
  obtain ⟨hlo, hhi⟩ := Machine.smag_range b
  exact ⟨smag_of_sign_set, smag_of_sign_clear, hlo, hhi, rfl, rfl, by omega⟩

/-- A magnitude above seven bits has no byte (R88). -/
theorem smenc_eq_none {v : Int} (h : 127 < v.natAbs) : smenc v = none := if_pos h

/-- The byte of a negative literal is bit 7 and its magnitude (R88). -/
theorem smenc_of_neg {v : Int} (hmag : v.natAbs ≤ 127) (h : v < 0) :
    ∃ b, smenc v = some b ∧ b.toNat = 128 + v.natAbs := by
  refine ⟨0x80#8 ||| BitVec.ofNat 8 v.natAbs, by rw [smenc, if_neg (by omega), if_pos h], ?_⟩
  rw [BitVec.toNat_or, BitVec.toNat_ofNat, BitVec.toNat_ofNat, Nat.mod_eq_of_lt (a := v.natAbs) (by omega)]
  exact (Nat.two_pow_add_eq_or_of_lt (i := 7) (by omega) 1).symm

/-- The byte of any other literal is its magnitude (R88). -/
theorem smenc_of_nonneg {v : Int} (hmag : v.natAbs ≤ 127) (h : 0 ≤ v) :
    ∃ b, smenc v = some b ∧ b.toNat = v.natAbs := by
  refine ⟨BitVec.ofNat 8 v.natAbs, by rw [smenc, if_neg (by omega), if_neg (by omega)], ?_⟩
  rw [BitVec.toNat_ofNat, Nat.mod_eq_of_lt (by omega)]

/-- A literal of a magnitude that fits seven bits has a byte (R88). -/
theorem exists_smenc_eq_some {v : Int} (hmag : v.natAbs ≤ 127) : ∃ b, smenc v = some b := by
  rcases lt_or_ge v 0 with h | h
  · exact (smenc_of_neg hmag h).imp fun _ hb => hb.1
  · exact (smenc_of_nonneg hmag h).imp fun _ hb => hb.1

/-- The operand byte of a literal token is the byte of its value (R88, R105). -/
theorem Asm.operandByte_of_some {tok : Asm.Chars} {v : Int} {b : Byte} (hv : Asm.literal? tok = some v)
    (hb : smenc v = some b) : Asm.operandByte tok = .ok b := by
  simp only [Asm.operandByte, hv, hb]

/-- A literal token whose value has no byte is out of range (R88, R105). -/
theorem Asm.operandByte_of_none {tok : Asm.Chars} {v : Int} (hv : Asm.literal? tok = some v)
    (hb : smenc v = none) : Asm.operandByte tok = .error .operandOutOfRange := by
  simp only [Asm.operandByte, hv, hb]

/-- Settles O9: the byte by the literal's sign and magnitude, which the assembler passes on. -/
theorem literalByteEncoding : Obligations.LiteralByteEncoding := by
  refine ⟨fun v => ⟨smenc_eq_none, smenc_of_neg, smenc_of_nonneg⟩, fun tok v hv => ⟨fun hmag => ?_, fun hmag => ?_⟩⟩
  · exact Asm.operandByte_of_none hv (smenc_eq_none hmag)
  · obtain ⟨b, hb⟩ := exists_smenc_eq_some hmag
    exact ⟨b, hb, Asm.operandByte_of_some hv hb⟩

end Sys2Proof
end

section
/-! PROOFS. The execution cycle (40_execution_cycle.md R142): the step of a running state that has no word to fetch. -/

namespace Sys2Proof.Machine

/-- A running state with no word at `pc` halts (R142). -/
theorem step_of_fetch_eq_none {s : State} (hrun : s.status = .running) (hfetch : s.fetch = none) :
    step s = .next s.halt := by
  simp only [step, hrun, hfetch]

/-- Settles O17: at or past the end there is no word to fetch, and halting sets the status alone. -/
theorem stepPastTheEndHalts : Obligations.StepPastTheEndHalts := fun _ hrun hpc =>
  step_of_fetch_eq_none hrun (fetch_of_length_le hpc)

end Sys2Proof.Machine
end

section
/-! PROOFS. The codec's round trips (30_encoding.md R82 to R86, R90, R94, R95): fields and words, then instructions and
words. -/

namespace Sys2Proof

/-! ## Fields and words -/

/-- Field tuples with equal numbers are equal. -/
theorem Fields.eq_of_toNat_eq {f g : Fields} (hop : f.op.toNat = g.op.toNat) (hreg : f.reg.toNat = g.reg.toNat)
    (htyp : f.typ.toNat = g.typ.toNat) (hopnd : f.opnd.toNat = g.opnd.toNat) : f = g := by
  cases f
  cases g
  simp only [Fields.mk.injEq, ← BitVec.toNat_inj]
  exact ⟨hop, hreg, htyp, hopnd⟩

/-- Encoding loses no field (R86). -/
@[simp] theorem decodeFields_encodeFields (f : Fields) : decodeFields (encodeFields f) = f := by
  have hop := f.op.isLt
  have hreg := f.reg.isLt
  have htyp := f.typ.isLt
  have hopnd := f.opnd.isLt
  apply Fields.eq_of_toNat_eq <;> simp [toNat_encodeFields] <;> omega

/-- The fields of a word are its low 18 bits (R84, R86). -/
theorem toNat_encodeFields_decodeFields (w : Word) : (encodeFields (decodeFields w)).toNat = w.toNat % 2 ^ 18 := by
  rw [toNat_encodeFields, toNat_decodeFields_op, toNat_decodeFields_reg, toNat_decodeFields_typ,
    toNat_decodeFields_opnd]
  omega

/-- A word comes back from its fields with bits 31..18 cleared (R86). -/
theorem encodeFields_decodeFields_eq_and (w : Word) : encodeFields (decodeFields w) = w &&& 0x0003FFFF#32 := by
  refine BitVec.eq_of_toNat_eq ?_
  rw [toNat_encodeFields_decodeFields, BitVec.toNat_and]
  exact (Nat.and_two_pow_sub_one_eq_mod w.toNat 18).symm

/-- A word whose high bits are clear comes back from its fields (R86). -/
theorem encodeFields_decodeFields {w : Word} (h : hiOk w = true) : encodeFields (decodeFields w) = w := by
  refine BitVec.eq_of_toNat_eq ?_
  rw [toNat_encodeFields_decodeFields, Nat.mod_eq_of_lt ((hiOk_iff w).1 h)]

/-- The decoder's check of the high bits is the well-formedness check (R85, R95). -/
theorem hiOk_eq_wordHighBitsClear (w : Word) : hiOk w = wordHighBitsClear w := by
  rw [Bool.eq_iff_iff, hiOk_iff, wordHighBitsClear, decide_eq_true_iff]

/-- Settles O4: the fields of a word are the digits of its low 18 bits. -/
theorem fieldTuplesAndWordsRoundTrip : Obligations.FieldTuplesAndWordsRoundTrip :=
  ⟨decodeFields_encodeFields, fun w hw => encodeFields_decodeFields (hiOk_eq_wordHighBitsClear w ▸ hw),
    encodeFields_decodeFields_eq_and⟩

/-! ## Instructions and words -/

/-- The two readings of the opcode map agree on every instruction (R90). -/
theorem opcodeMap : ∀ i : Instr, Laws.OpcodeMap.Statement i
  | .prt r t n => Laws.OpcodeMap.prt r t n
  | .set r t n => Laws.OpcodeMap.set r t n
  | .add r t n => Laws.OpcodeMap.add r t n
  | .sub r t n => Laws.OpcodeMap.sub r t n
  | .mul r t n => Laws.OpcodeMap.mul r t n
  | .div r t n => Laws.OpcodeMap.div r t n
  | .jmp r t n => Laws.OpcodeMap.jmp r t n
  | .jnp r t n => Laws.OpcodeMap.jnp r t n
  | .eql r t n => Laws.OpcodeMap.eql r t n
  | .cbp r t n => Laws.OpcodeMap.cbp r t n
  | .clp r t n => Laws.OpcodeMap.clp r t n

/-- A field tuple that names an instruction is that instruction's (R90). -/
theorem toFields_of_instrOfFields {f : Fields} {i : Instr} (h : instrOfFields f = some i) : i.toFields = f := by
  unfold instrOfFields at h
  split at h
  case h_12 => cases h
  all_goals
    rename_i hop
    cases h
    exact Fields.eq_of_toNat_eq hop.symm rfl rfl rfl

/-- A field tuple names no instruction exactly when its opcode is above 10 (R90, R94). -/
theorem instrOfFields_eq_none_iff (f : Fields) : instrOfFields f = none ↔ 10 < f.op.toNat := by
  refine ⟨fun h => ?_, instrOfFields_eq_none⟩
  by_contra hop
  have hused : f.op.toNat ≤ 10 := by omega
  unfold instrOfFields at h
  interval_cases f.op.toNat <;> cases h

/-- What the decoder answers: the instruction its fields name, when the high bits are clear. -/
theorem decodeWord_ok_iff_fields (w : Word) (i : Instr) :
    decodeWord w = .ok i ↔ hiOk w = true ∧ instrOfFields (decodeFields w) = some i := by
  unfold decodeWord
  cases hiOk w <;> cases instrOfFields (decodeFields w) <;> simp

/-- A word is malformed exactly when a high bit is set (R95). -/
theorem decodeWord_malformed_iff (w : Word) : decodeWord w = .error .malformedWord ↔ hiOk w = false := by
  unfold decodeWord
  cases hiOk w <;> cases instrOfFields (decodeFields w) <;> simp

/-- A word is illegal exactly when no high bit is set and its fields name no instruction (R94). -/
theorem decodeWord_illegal_iff (w : Word) :
    decodeWord w = .error .illegalOpcode ↔ hiOk w = true ∧ instrOfFields (decodeFields w) = none := by
  unfold decodeWord
  cases hiOk w <;> cases instrOfFields (decodeFields w) <;> simp

/-- The high bits of an encoded tuple are clear (R82). -/
theorem hiOk_encodeFields (f : Fields) : hiOk (encodeFields f) = true := by
  have hop := f.op.isLt
  have hreg := f.reg.isLt
  have htyp := f.typ.isLt
  have hopnd := f.opnd.isLt
  rw [hiOk_iff, toNat_encodeFields]
  omega

/-- A word decodes to `i` exactly when it is the word of `i`. -/
theorem decodeWord_ok_iff (w : Word) (i : Instr) : decodeWord w = .ok i ↔ w = encode i := by
  rw [decodeWord_ok_iff_fields]
  constructor
  · rintro ⟨hhigh, hi⟩
    rw [encode, toFields_of_instrOfFields hi, encodeFields_decodeFields hhigh]
  · rintro rfl
    refine ⟨hiOk_encodeFields _, ?_⟩
    rw [encode, decodeFields_encodeFields]
    exact (opcodeMap i).2

/-- Every instruction comes back from its word. -/
@[simp] theorem decodeWord_encode (i : Instr) : decodeWord (encode i) = .ok i := (decodeWord_ok_iff _ i).2 rfl

/-- The four bytes of a word that is an instruction are read as it, whatever follows (R62, R81). -/
theorem decodeBytes_wordBytes {w : Word} {i : Instr} (h : decodeWord w = .ok i) (rest : List Byte) :
    decodeBytes (wordBytes w ++ rest) = .ok (i, rest) := by
  simp only [wordBytes, List.cons_append, List.nil_append, decodeBytes, Machine.wordOfBytes_bytes, h]

/-- Settles O6: a word decodes to `i` when it is the word of `i`, and its four bytes are that word. -/
theorem encodedInstructionsDecodeBack : Obligations.EncodedInstructionsDecodeBack := fun i rest =>
  ⟨decodeWord_encode i, decodeBytes_wordBytes (decodeWord_encode i) rest⟩

/-- The opcode check of a word is that of its fields (R90, R94). -/
theorem wordOpcodeUsed_eq_false_iff (w : Word) : wordOpcodeUsed w = false ↔ 10 < (decodeFields w).op.toNat := by
  rw [wordOpcodeUsed, decide_eq_false_iff_not, toNat_decodeFields_op, Nat.not_le]
  rfl

/-- Settles O7: decoding inverts encoding on its image, and the rest is split by the high bits, then by the opcode. -/
theorem eachWordHasOneMeaning : Obligations.EachWordHasOneMeaning := by
  refine fun w => ⟨decodeWord_ok_iff w, ?_, ?_⟩
  · rw [decodeWord_malformed_iff, hiOk_eq_wordHighBitsClear]
  · rw [decodeWord_illegal_iff, instrOfFields_eq_none_iff, hiOk_eq_wordHighBitsClear, wordOpcodeUsed_eq_false_iff]

/-- Settles O1: the word of each instruction decodes to it, and of the last four an opcode above 10 or a high bit
decides. -/
theorem specWordsDecode : Obligations.SpecWordsDecode := by
  have h := decodeWord_encode
  exact ⟨h (.prt 3 2 0x00), h (.set 2 0 0xFF), h (.add 1 1 0x01), h (.sub 0 0 0x05), h (.mul 0 0 0x81),
    h (.div 2 1 0x02), h (.jmp 7 3 0x05), h (.jnp 0 0 0x05), h (.eql 1 1 0x02), h (.cbp 0 0 0x7F),
    h (.clp 15 0 0xFF), (decodeWord_illegal_iff _).2 ⟨rfl, rfl⟩, (decodeWord_illegal_iff _).2 ⟨rfl, rfl⟩,
    (decodeWord_malformed_iff _).2 rfl, (decodeWord_malformed_iff _).2 rfl⟩

end Sys2Proof
end

section
/-! PROOFS. What every instruction and every step leaves unchanged, and what completion and faults leave (10_state.md,
40_execution_cycle.md R145 to R147, 60_exceptions.md R240, R242). -/

namespace Sys2Proof.Machine

/-! ## The writes of a completed rule -/

/-- A completed rule leaves the output stream, or PRT appends one entry in range (R41). -/
theorem effect_ok_out {i : Instr} {s u : State} (h : effect i s = .ok u) :
    u.out = s.out ∨ isPrint i = true ∧ ∃ v, InByteRange v ∧ u.out = s.out ++ [v] := by
  have hs := effect_ok_shape h
  cases i with
  | prt r t n =>
    rcases hs with rfl | ⟨v, hv, rfl⟩
    · exact .inl rfl
    · exact .inr ⟨rfl, v, hv, rfl⟩
  | set r t n | add r t n | sub r t n | mul r t n | div r t n => obtain ⟨v, -, rfl⟩ := hs; exact .inl rfl
  | jmp r t n | jnp r t n => obtain ⟨f, -, rfl⟩ := hs; exact .inl rfl
  | eql r t n | cbp r t n | clp r t n => obtain ⟨b, rfl⟩ := hs; exact .inl rfl

/-- A completed rule leaves the flag, or a comparison writes it (R37). -/
theorem effect_ok_flag {i : Instr} {s u : State} (h : effect i s = .ok u) :
    (isComparison i = false ∧ s.sameFlag u) ∨ (isComparison i = true ∧ u.flagWritten = true) := by
  have hs := effect_ok_shape h
  cases i with
  | prt r t n => rcases hs with rfl | ⟨v, -, rfl⟩ <;> exact .inl ⟨rfl, rfl, rfl⟩
  | set r t n | add r t n | sub r t n | mul r t n | div r t n => obtain ⟨v, -, rfl⟩ := hs; exact .inl ⟨rfl, rfl, rfl⟩
  | jmp r t n | jnp r t n => obtain ⟨f, -, rfl⟩ := hs; exact .inl ⟨rfl, rfl, rfl⟩
  | eql r t n | cbp r t n | clp r t n => obtain ⟨b, rfl⟩ := hs; exact .inr ⟨rfl, rfl⟩

/-- A flag holds at most one value (R37, R38). -/
theorem flagHolds_unique {s : State} {a b : Bool} (ha : s.flagHolds a) (hb : s.flagHolds b) : a = b := by
  rw [← readFlag_ok_iff] at ha hb
  rw [ha] at hb
  exact Except.ok.inj hb

/-- A completed branch lands at its operand when it is taken and goes on otherwise (R200, R202). -/
theorem branchNext_of_flagHolds {s : State} {f : Bool} (hf : s.flagHolds f) (takenWhen : Bool) (n : Nat) :
    branchNext takenWhen f n s.pc = if s.flagHolds takenWhen then landing n else s.pc + 1 := by
  by_cases h : f = takenWhen
  · subst h
    rw [if_pos hf]
    exact if_pos rfl
  · rw [if_neg fun ht => h (flagHolds_unique hf ht)]
    exact if_neg h

/-- A completed rule sets `pc` to the landing of a taken branch, else to the next index (R145, R200 to R203). -/
theorem effect_ok_pc {i : Instr} {s u : State} (h : effect i s = .ok u) :
    u.pc = ((takenOperand s i).map landing).getD (s.pc + 1) := by
  have hs := effect_ok_shape h
  cases i with
  | prt r t n => rcases hs with rfl | ⟨v, -, rfl⟩ <;> rfl
  | set r t n | add r t n | sub r t n | mul r t n | div r t n => obtain ⟨v, -, rfl⟩ := hs; rfl
  | jmp r t n | jnp r t n =>
    obtain ⟨f, hf, rfl⟩ := hs
    rw [State.setPc_pc, branchNext_of_flagHolds hf, takenOperand]
    split <;> rfl
  | eql r t n | cbp r t n | clp r t n => obtain ⟨b, rfl⟩ := hs; rfl

/-- The operand of a taken branch is a byte. -/
theorem takenOperand_lt {s : State} {i : Instr} {u : Nat} (h : takenOperand s i = some u) : u < 256 := by
  cases i with
  | jmp r t n | jnp r t n =>
    rw [takenOperand] at h
    split at h
    · cases h
      exact n.isLt
    · cases h
  | prt r t n | set r t n | add r t n | sub r t n | mul r t n | div r t n | eql r t n | cbp r t n | clp r t n => cases h

/-- No written bit falls in a completed rule (R33, R45). -/
theorem effect_ok_regWritten {i : Instr} {s u : State} (h : effect i s = .ok u) {q : RegIdx}
    (hq : s.regWritten q = true) : u.regWritten q = true := by
  cases hw : writesRegister i with
  | none =>
    have hsame : s.sameRegisters u := effect_ok_sameRegisters hw h
    rw [(reg_eq_of_sameRegisters hsame q).2, hq]
  | some r =>
    obtain ⟨v, -, rfl⟩ := effect_ok_writeReg hw h
    change (s.writeReg r v).regWritten q = true
    rw [regWritten_writeReg, hq, ite_self]

/-! ## The causes of a rule -/

/-- A comparison raises what the table gives it (R240). -/
theorem compare_error_cause {s : State} {op : CmpOp} {reg : RegIdx} {typ : TypeTag} {opnd : Byte} {c : Cause}
    (h : s.compare op reg typ opnd = .error c) :
    (s.params.cmpType1 = .register ∧ typ = 1#2 ∧ c = .registerOutOfRange) ∨
      (c = .uninitializedRegister ∧ s.params.regReset = .unwritten) := by
  rcases (compare_error_iff _ _ _ _ _ _).1 h with hb | ⟨b, -, rfl, -, hun⟩
  · obtain ⟨⟨hcmp, htyp⟩, ⟨rfl, -⟩ | ⟨rfl, -, -, hun⟩⟩ := (cmpB_error_iff _ _ _ _).1 hb
    · exact .inl ⟨hcmp, htyp, rfl⟩
    · exact .inr ⟨rfl, hun⟩
  · exact .inr ⟨rfl, hun⟩

/-- An arithmetic rule raises what the table gives it (R240). -/
theorem arith_error_cause {s : State} {fn : AluFn} {reg : RegIdx} {typ : TypeTag} {opnd : Byte} {c : Cause}
    (h : s.arith fn reg typ opnd = .error c) :
    (typ = 1#2 ∧ c = .registerOutOfRange) ∨ (c = .uninitializedRegister ∧ s.params.regReset = .unwritten) ∨
      (c = .divideByZero ∧ fn = .div) ∨ c = .arithmeticOverflow := by
  rcases (arith_error_iff _ _ _ _ _ _).1 h with
    ⟨rfl, htyp, -⟩ | ⟨-, ⟨rfl, -, hun⟩ | ⟨a, -, ⟨rfl, -, -, -, hun⟩ | ⟨b, -, ⟨rfl, hfn, -⟩ | ⟨rfl, -, -⟩⟩⟩⟩
  · exact .inl ⟨htyp, rfl⟩
  · exact .inr (.inl ⟨rfl, hun⟩)
  · exact .inr (.inl ⟨rfl, hun⟩)
  · exact .inr (.inr (.inl ⟨rfl, hfn⟩))
  · exact .inr (.inr (.inr rfl))

/-- A rule raises a cause of the table, and one about unwritten state only under `Unwritten` (R33, R38, R240). -/
theorem effect_error_cause {i : Instr} {s : State} {c : Cause} (h : effect i s = .error c) :
    mayRaise s.params i c ∧ (c = .uninitializedRegister → s.params.regReset = .unwritten) ∧
      (c = .uninitializedFlag → s.params.flagReset = .unwritten) := by
  cases i with
  | prt r t n =>
    obtain ⟨ht, rfl, -, hun⟩ := (print_error_iff _ _ _ _ _).1 h
    exact ⟨⟨ht, rfl⟩, fun _ => hun, nofun⟩
  | set r t n =>
    rcases (move_error_iff _ _ _ _ _).1 h with ⟨rfl, ht, -⟩ | ⟨-, rfl, ht, -, -, hun⟩
    · exact ⟨⟨ht, .inl rfl⟩, nofun, nofun⟩
    · exact ⟨⟨ht, .inr rfl⟩, fun _ => hun, nofun⟩
  | add r t n | sub r t n | mul r t n =>
    rcases arith_error_cause h with ⟨ht, rfl⟩ | ⟨rfl, hun⟩ | ⟨-, hfn⟩ | rfl
    · exact ⟨.inl ⟨ht, rfl⟩, nofun, nofun⟩
    · exact ⟨.inr (.inl rfl), fun _ => hun, nofun⟩
    · cases hfn
    · exact ⟨.inr (.inr rfl), nofun, nofun⟩
  | div r t n =>
    rcases arith_error_cause h with ⟨ht, rfl⟩ | ⟨rfl, hun⟩ | ⟨rfl, -⟩ | rfl
    · exact ⟨.inl ⟨ht, rfl⟩, nofun, nofun⟩
    · exact ⟨.inr (.inl rfl), fun _ => hun, nofun⟩
    · exact ⟨.inr (.inr (.inl rfl)), nofun, nofun⟩
    · exact ⟨.inr (.inr (.inr rfl)), nofun, nofun⟩
  | jmp r t n | jnp r t n =>
    obtain ⟨rfl, -, hun⟩ := (branch_error_iff _ _ _ _).1 h
    exact ⟨rfl, nofun, fun _ => hun⟩
  | eql r t n | cbp r t n | clp r t n =>
    rcases compare_error_cause h with ⟨hcmp, ht, rfl⟩ | ⟨rfl, hun⟩
    · exact ⟨.inl ⟨hcmp, ht, rfl⟩, nofun, nofun⟩
    · exact ⟨.inr rfl, fun _ => hun, nofun⟩

/-- No instruction raises the load's cause (R240, R241). -/
theorem effect_error_ne_malformedArtifact {i : Instr} {s : State} {c : Cause} (h : effect i s = .error c) :
    c ≠ .malformedArtifact := by
  rintro rfl
  have hmay := (effect_error_cause h).1
  cases i <;> simp [mayRaise] at hmay

/-! ## Completion and faults -/

/-- The tick count is over the limit exactly when there is a limit below it (R147). -/
theorem tickLimitExceeded_iff (limit : Option Nat) (tick : Nat) :
    tickLimitExceeded limit tick = true ↔ ∃ l, limit = some l ∧ l < tick := by
  cases limit <;> simp [tickLimitExceeded]

/-- The status after a completed rule of a running machine: halted over the limit, else running (R147). -/
theorem effect_ok_complete_status {i : Instr} {s u : State} (hrun : s.status = .running) (h : effect i s = .ok u) :
    (u.complete.status = .halted ∧ ∃ l, s.params.tickLimit = some l ∧ l < s.tick + 1) ∨
      (u.complete.status = .running ∧ ∀ l, s.params.tickLimit = some l → s.tick + 1 ≤ l) := by
  obtain ⟨htick, hstatus, -, hparams⟩ := effect_ok_frame h
  rw [State.complete_status, htick, hstatus, hparams, hrun]
  by_cases hover : tickLimitExceeded s.params.tickLimit (s.tick + 1) = true
  · exact .inl ⟨if_pos hover, (tickLimitExceeded_iff _ _).1 hover⟩
  · refine .inr ⟨if_neg hover, fun l hl => Nat.not_lt.1 fun hlt => hover ?_⟩
    exact (tickLimitExceeded_iff _ _).2 ⟨l, hl, hlt⟩

/-- A completed rule of a running machine leaves no fault record. -/
theorem effect_ok_isFault {i : Instr} {s u : State} (hrun : s.status = .running) (h : effect i s = .ok u) :
    u.complete.status.isFault = false := by
  rcases effect_ok_complete_status hrun h with ⟨hst, -⟩ | ⟨hst, -⟩ <;> rw [hst] <;> rfl

/-- An instruction that leaves no fault record has completed its rule. -/
theorem exec_completed {i : Instr} {s t : State} (h : exec i s = .next t) (hfault : t.status.isFault = false) :
    ∃ u, effect i s = .ok u ∧ t = u.complete := by
  rcases (exec_next_iff i s t).1 h with hu | ⟨c, -, rfl⟩
  · exact hu
  · cases hfault

/-- On a running machine a fault record comes from the rule's cause, on the state before (R242). -/
theorem exec_faulted {i : Instr} {s t : State} {c : Cause} {p : Option Nat} {w : Option Word}
    (hrun : s.status = .running) (h : exec i s = .next t) (hst : t.status = .faulted c p w) :
    effect i s = .error c ∧ t = s.raise c (encode i) := by
  rcases (exec_next_iff i s t).1 h with ⟨u, hu, rfl⟩ | ⟨d, hd, rfl⟩
  · have hnot := effect_ok_isFault hrun hu
    rw [hst] at hnot
    cases hnot
  · cases hst
    exact ⟨hd, rfl⟩

/-! ## Rules of the whole machine -/

/-- Settles O33: every instruction retires its rule, and retirement gives a next state. -/
theorem everyInstructionAnswersANextState : Obligations.EveryInstructionAnswersANextState := by
  intro i s
  rw [exec_eq_retire]
  cases effect i s with
  | ok u => exact ⟨_, rfl⟩
  | error c => exact ⟨_, rfl⟩

/-- Settles O34: a fault record on a running machine is the one `raise` puts on the state before. -/
theorem faultsCommitNothing : Obligations.FaultsCommitNothing := fun _ _ _ _ _ _ hrun h hst =>
  (exec_faulted hrun h hst).2

/-- Settles O35: the cause in the record is the rule's. -/
theorem causesPerInstruction : Obligations.CausesPerInstruction := fun _ _ _ _ _ _ hrun h hst =>
  effect_error_cause (exec_faulted hrun h hst).1

/-- Settles O36: a completed rule leaves the flag or is a comparison that writes it, and a fault leaves it. -/
theorem onlyComparisonsWriteTheFlag : Obligations.OnlyComparisonsWriteTheFlag := by
  refine fun i s t h => ⟨fun hi => ?_, fun hi _ hfault => ?_⟩
  · rcases (exec_next_iff i s t).1 h with ⟨u, hu, rfl⟩ | ⟨c, -, rfl⟩
    · rcases effect_ok_flag hu with ⟨-, hsame⟩ | ⟨hcmp, -⟩
      · exact hsame
      · rw [hi] at hcmp
        cases hcmp
    · exact ⟨rfl, rfl⟩
  · obtain ⟨u, hu, rfl⟩ := exec_completed h hfault
    rcases effect_ok_flag hu with ⟨hcmp, -⟩ | ⟨-, hwritten⟩
    · rw [hi] at hcmp
      cases hcmp
    · exact hwritten

/-- Settles O38: a completed rule leaves the stream or is a PRT that appends one entry, and a fault leaves it. -/
theorem onlyPrintAppends : Obligations.OnlyPrintAppends := by
  intro i s t h
  rcases (exec_next_iff i s t).1 h with ⟨u, hu, rfl⟩ | ⟨c, -, rfl⟩
  · rcases effect_ok_out hu with hout | ⟨hprt, v, -, hout⟩
    · exact ⟨fun _ => hout, .inl hout⟩
    · refine ⟨fun hi => ?_, .inr ⟨v, hout⟩⟩
      rw [hi] at hprt
      cases hprt
  · exact ⟨fun _ => rfl, .inl rfl⟩

/-- Settles O42: on a running machine the two statuses of a completion are split by the limit. -/
theorem tickLimitHaltsAfterCompletion : Obligations.TickLimitHaltsAfterCompletion := by
  intro i s t hrun h hfault
  obtain ⟨u, hu, rfl⟩ := exec_completed h hfault
  rcases effect_ok_complete_status hrun hu with ⟨hst, l, hl, hlt⟩ | ⟨hst, hle⟩ <;> rw [hst]
  · refine ⟨⟨fun _ => ⟨l, hl, hlt⟩, fun _ => rfl⟩, nofun, fun hle => ?_⟩
    exact absurd (hle l hl) (Nat.not_le.2 hlt)
  · refine ⟨⟨nofun, fun ⟨l, hl, hlt⟩ => ?_⟩, fun _ => hle, fun _ => rfl⟩
    exact absurd (hle l hl) (Nat.not_le.2 hlt)

/-! ## The step -/

/-- An instruction leaves the image and the parameters (R61). -/
theorem exec_program_params {i : Instr} {s t : State} (h : exec i s = .next t) :
    t.program = s.program ∧ t.params = s.params := by
  rcases (exec_next_iff i s t).1 h with ⟨u, hu, rfl⟩ | ⟨c, -, rfl⟩
  · obtain ⟨-, -, hprogram, hparams⟩ := effect_ok_frame hu
    exact ⟨hprogram, hparams⟩
  · exact ⟨rfl, rfl⟩

/-- A step leaves the image and the parameters (R61). -/
theorem step_program_params {s t : State} (h : step s = .next t) : t.program = s.program ∧ t.params = s.params := by
  obtain ⟨-, ⟨-, rfl⟩ | ⟨w, e, -, -, rfl⟩ | ⟨w, i, -, -, hexec⟩⟩ := step_next_cases h
  · exact ⟨rfl, rfl⟩
  · exact ⟨rfl, rfl⟩
  · exact exec_program_params hexec

/-- Settles O39: the image is the same data, so each byte reads the same. -/
theorem stepsKeepProgramAndParameters : Obligations.StepsKeepProgramAndParameters := by
  intro s t h
  obtain ⟨hprogram, hparams⟩ := step_program_params h
  exact ⟨hprogram, hparams, fun a => by rw [hprogram]⟩

/-- No instruction clears a written bit (R33, R45). -/
theorem exec_written {i : Instr} {s t : State} (h : exec i s = .next t) :
    (∀ r, s.regWritten r = true → t.regWritten r = true) ∧ (s.flagWritten = true → t.flagWritten = true) := by
  rcases (exec_next_iff i s t).1 h with ⟨u, hu, rfl⟩ | ⟨c, -, rfl⟩
  · refine ⟨fun r hr => effect_ok_regWritten hu hr, fun hf => ?_⟩
    rcases effect_ok_flag hu with ⟨-, -, hsame⟩ | ⟨-, hwritten⟩
    · exact hsame.trans hf
    · exact hwritten
  · exact ⟨fun _ hr => hr, fun hf => hf⟩

/-- Settles O43: a halt and a fault leave the written bits, and no instruction clears one. -/
theorem writtenBitsStaySet : Obligations.WrittenBitsStaySet := by
  intro s t h
  obtain ⟨-, ⟨-, rfl⟩ | ⟨w, e, -, -, rfl⟩ | ⟨w, i, -, -, hexec⟩⟩ := step_next_cases h
  · exact ⟨fun _ hr => hr, fun hf => hf⟩
  · exact ⟨fun _ hr => hr, fun hf => hf⟩
  · exact exec_written hexec

/-- Settles O16: `step` adds nothing around the instruction. -/
theorem stepRunsTheDecodedInstruction : Obligations.StepRunsTheDecodedInstruction := by
  intro s w i hrun hfetch hdecode
  simp only [step, hrun, State.fetch, hfetch, hdecode]

/-- A running state whose word is no instruction takes its fault (R143). -/
theorem step_of_decodeWord_error {s : State} {w : Word} {e : DecodeError} (hrun : s.status = .running)
    (hfetch : s.fetch = some w) (hdecode : decodeWord w = .error e) :
    step s = .next (s.raise (causeOfDecodeError e) w) := by
  simp only [step, hrun, hfetch, hdecode]

/-- Bits 31..18 as arithmetic (R85, R95). -/
theorem extractLsb'_high_eq_zero_iff (w : Word) : w.extractLsb' 18 14 = 0#14 ↔ hiOk w = true := by
  have hw := w.isLt
  rw [hiOk_iff, ← BitVec.toNat_inj, BitVec.extractLsb'_toNat, Nat.shiftRight_eq_div_pow, BitVec.toNat_ofNat]
  omega

/-- Settles O18: the two decode errors, in their order, are the causes raised. -/
theorem stepFaultsOnWordsThatAreNoInstruction : Obligations.StepFaultsOnWordsThatAreNoInstruction := by
  refine fun s w hrun hfetch => ⟨fun hhigh => ?_, fun hhigh hop => ?_⟩
  · rw [ne_eq, extractLsb'_high_eq_zero_iff, Bool.not_eq_true] at hhigh
    exact step_of_decodeWord_error hrun hfetch ((decodeWord_malformed_iff w).2 hhigh)
  · have hopcode : 10 < (decodeFields w).op.toNat := by
      rwa [toNat_decodeFields_op, ← Nat.shiftRight_eq_div_pow, ← BitVec.extractLsb'_toNat]
    exact step_of_decodeWord_error hrun hfetch
      (decodeWord_of_op_gt ((extractLsb'_high_eq_zero_iff w).1 hhigh) hopcode)

/-- Settles O19: the status alone decides. -/
theorem terminalStatusHasNoStep : Obligations.TerminalStatusHasNoStep :=
  ⟨fun s hs => by simp only [step, hs], fun s c p w hs => by simp only [step, hs]⟩

end Sys2Proof.Machine
end

section
/-! PROOFS. The invariant of the machine: every step keeps it, every constructed machine has it, so every run stays in
it (92_eei_decisions.md D12, D13; 60_exceptions.md R241, R242). -/

namespace Sys2Proof.Machine

/-! ## Every step keeps the invariant -/

/-- A word is fetched exactly below the program length (R64). -/
theorem fetch_eq_none_iff (p : ProgramImage) (i : Nat) : p.fetch i = none ↔ p.length ≤ i := by
  refine ⟨fun h => Nat.not_lt.1 fun hlt => ?_, fetch_of_length_le⟩
  rw [fetch_of_lt hlt] at h
  cases h

/-- A step that fetches a word has `pc` below the program length. -/
theorem pc_lt_of_fetch {s : State} {w : Word} (h : s.fetch = some w) : s.pc < s.program.length := by
  refine Nat.not_le.1 fun hle => ?_
  rw [State.fetch, fetch_of_length_le hle] at h
  cases h

/-- The halt past the end keeps the invariant. -/
theorem State.Inv.halt {s : State} (hs : s.Inv) (hfetch : s.fetch = none) : s.halt.Inv where
  outInRange := hs.outInRange
  imageCanonical := hs.imageCanonical
  pcBound := hs.pcBound
  runningWithinLimit := nofun
  tickBound := hs.tickBound
  haltReason := fun _ => .inl ((fetch_eq_none_iff _ _).1 hfetch)
  faultRecord := nofun

/-- A fault of the word fetched keeps the invariant. -/
theorem State.Inv.raise {s : State} (hs : s.Inv) {c : Cause} {w : Word} (hc : c ≠ .malformedArtifact)
    (hfetch : s.fetch = some w) : (s.raise c w).Inv where
  outInRange := hs.outInRange
  imageCanonical := hs.imageCanonical
  pcBound := hs.pcBound
  runningWithinLimit := nofun
  tickBound := hs.tickBound
  haltReason := nofun
  faultRecord := by
    rintro _ _ _ hst
    cases hst
    exact .inr ⟨hc, rfl, hfetch.symm, pc_lt_of_fetch hfetch⟩

/-- A completed rule keeps `pc` within its bound: a landing is at most 254 (D13). -/
theorem effect_ok_pc_le {i : Instr} {s u : State} (h : effect i s = .ok u) (hpc : s.pc < s.program.length) :
    u.pc ≤ max s.program.length 254 := by
  rw [effect_ok_pc h]
  cases ht : takenOperand s i with
  | none => exact le_max_of_le_left hpc
  | some n =>
    have hn := takenOperand_lt ht
    simp only [Option.map_some, Option.getD_some, landing_eq]
    omega

/-- A completed rule keeps the outputs in range (R41). -/
theorem effect_ok_outInRange {i : Instr} {s u : State} (h : effect i s = .ok u) (hs : ∀ v ∈ s.out, InByteRange v) :
    ∀ v ∈ u.out, InByteRange v := by
  rcases effect_ok_out h with hout | ⟨-, x, hx, hout⟩ <;> rw [hout]
  · exact hs
  · intro v hv
    rcases List.mem_append.1 hv with hv | hv
    · exact hs v hv
    · rw [List.mem_singleton.1 hv]
      exact hx

/-- Completion of an instruction keeps the invariant. -/
theorem State.Inv.complete {i : Instr} {s u : State} (hs : s.Inv) (hrun : s.status = .running)
    (hpc : s.pc < s.program.length) (h : effect i s = .ok u) : u.complete.Inv := by
  obtain ⟨htick, -, hprogram, hparams⟩ := effect_ok_frame h
  have hstatus := effect_ok_complete_status hrun h
  constructor
  case outInRange => simpa using effect_ok_outInRange h hs.outInRange
  case imageCanonical => simpa [hprogram] using hs.imageCanonical
  case pcBound => simpa [hprogram] using effect_ok_pc_le h hpc
  case runningWithinLimit =>
    intro l hl hst
    rcases hstatus with ⟨hhalt, -⟩ | ⟨-, hle⟩
    · rw [hst] at hhalt
      cases hhalt
    · simpa [htick] using hle l (by simpa [hparams] using hl)
  case tickBound =>
    intro l hl
    have hle := hs.runningWithinLimit l (by simpa [hparams] using hl) hrun
    simpa [htick] using hle
  case haltReason =>
    intro hst
    rcases hstatus with ⟨-, hover⟩ | ⟨hrunning, -⟩
    · exact .inr (by simpa [htick, hparams] using hover)
    · rw [hst] at hrunning
      cases hrunning
  case faultRecord =>
    intro c p w hst
    have hnot := effect_ok_isFault hrun h
    rw [hst] at hnot
    cases hnot

/-- An instruction fetched at `pc` keeps the invariant; its word is the one a fault records. -/
theorem State.Inv.exec {i : Instr} {s t : State} (hs : s.Inv) (hrun : s.status = .running)
    (hfetch : s.fetch = some (encode i)) (h : exec i s = .next t) : t.Inv := by
  rcases (exec_next_iff i s t).1 h with ⟨u, hu, rfl⟩ | ⟨c, hc, rfl⟩
  · exact hs.complete hrun (pc_lt_of_fetch hfetch) hu
  · exact hs.raise (effect_error_ne_malformedArtifact hc) hfetch

/-- Settles O47, by the three things a step can do. -/
theorem stepsKeepTheInvariant : Obligations.StepsKeepTheInvariant := by
  intro s t hs h
  obtain ⟨hrun, ⟨hfetch, rfl⟩ | ⟨w, e, hfetch, -, rfl⟩ | ⟨w, i, hfetch, hdecode, hexec⟩⟩ := step_next_cases h
  · exact hs.halt hfetch
  · exact hs.raise (by cases e <;> decide) hfetch
  · rw [(decodeWord_ok_iff w i).1 hdecode] at hfetch
    exact hs.exec hrun hfetch hexec

/-! ## Construction -/

/-- Construction from an artifact of whole words (R62, R270). -/
theorem construct_of_dvd (p : Params) {artifact : List Byte} (h : artifact.length % 4 = 0) :
    State.construct p artifact =
      { State.reset with program := ProgramImage.ofBytes artifact, params := p } := if_pos h

/-- Construction from any other artifact (R241). -/
theorem construct_of_not_dvd (p : Params) {artifact : List Byte} (h : artifact.length % 4 ≠ 0) :
    State.construct p artifact =
      { State.reset with status := .faulted .malformedArtifact none none, params := p } := if_neg h

/-- A constructed machine has completed nothing (R46). -/
theorem construct_tick (p : Params) (artifact : List Byte) : (State.construct p artifact).tick = 0 := by
  unfold State.construct
  split <;> rfl

/-- A constructed machine has its parameters (R9, R270). -/
theorem construct_params (p : Params) (artifact : List Byte) : (State.construct p artifact).params = p := by
  unfold State.construct
  split <;> rfl

/-- A state with no output and zero counts satisfies the invariant when its image is canonical and its status is running
or the record of the load. -/
theorem inv_of_zero {s : State} (hout : s.out = []) (himage : s.program.wf = true) (hpc : s.pc = 0)
    (htick : s.tick = 0) (hstatus : s.status = .running ∨ s.status = .faulted .malformedArtifact none none) :
    s.Inv where
  outInRange := by simp [hout]
  imageCanonical := himage
  pcBound := by simp [hpc]
  runningWithinLimit := by simp [htick]
  tickBound := by simp [htick]
  haltReason := fun hst => by rcases hstatus with h | h <;> rw [hst] at h <;> cases h
  faultRecord := fun c p w hst => by
    rcases hstatus with h | h <;> rw [hst] at h <;> cases h
    exact .inl ⟨rfl, rfl, rfl⟩

/-- Settles O46, by the length of the artifact. -/
theorem constructionSatisfiesTheInvariant : Obligations.ConstructionSatisfiesTheInvariant := by
  intro p artifact
  by_cases h : artifact.length % 4 = 0
  · rw [construct_of_dvd p h]
    exact inv_of_zero rfl (ofBytes_wf h) rfl rfl (.inl rfl)
  · rw [construct_of_not_dvd p h]
    exact inv_of_zero rfl reset_program_wf rfl rfl (.inr rfl)

/-- Settles O45: the reset image is empty and nothing has run. -/
theorem resetSatisfiesTheInvariant : Obligations.ResetSatisfiesTheInvariant :=
  inv_of_zero rfl reset_program_wf rfl rfl (.inl rfl)

/-- Settles O12: the load's record is terminal. -/
theorem malformedArtifactNeverRuns : Obligations.MalformedArtifactNeverRuns := by
  intro p artifact h
  have hst : (State.construct p artifact).status = .faulted .malformedArtifact none none := by
    rw [construct_of_not_dvd p h]
  exact ⟨hst, terminalStatusHasNoStep.2 _ _ _ _ hst⟩

/-- No register is written at reset (R46). -/
theorem reset_regWritten (r : RegIdx) : State.reset.regWritten r = false := by
  simp [State.regWritten, State.reset, Vector.get_eq_getElem]

/-- A machine constructed from whole words has no written register (R33, R46; log entry 30). -/
theorem construct_regWritten (p : Params) {artifact : List Byte} (h : artifact.length % 4 = 0) (r : RegIdx) :
    (State.construct p artifact).regWritten r = false := by
  rw [construct_of_dvd p h]
  exact reset_regWritten r

/-- A machine constructed from whole words has no written flag (R38; log entry 30). -/
theorem construct_flagWritten (p : Params) {artifact : List Byte} (h : artifact.length % 4 = 0) :
    (State.construct p artifact).flagWritten = false := by
  rw [construct_of_dvd p h]
  rfl

/-- Settles O14: construction replaces the program and the parameters of the reset state. -/
theorem constructionLeavesTheSpecState : Obligations.ConstructionLeavesTheSpecState := by
  refine ⟨fun p artifact h => ⟨?_, construct_tick p artifact, ?_, ?_, construct_regWritten p h,
    construct_flagWritten p h, construct_params p artifact⟩, rfl⟩ <;> rw [construct_of_dvd p h] <;> rfl

/-- Settles O15: with nothing written the parameters decide every read. -/
theorem readsBeforeTheFirstWrite : Obligations.ReadsBeforeTheFirstWrite := by
  intro p artifact h
  have hregs := construct_regWritten p h
  have hflag := construct_flagWritten p h
  have hparams := construct_params p artifact
  refine ⟨fun r hp => ?_, fun r hp => ?_, fun hp => ?_, fun hp => ?_, fun hp => ?_⟩ <;> rw [← hparams] at hp
  · exact (readReg_ok_iff _ r 0).2 (.inr ⟨hregs r, hp, rfl⟩)
  · exact (readReg_error_iff _ r _).2 ⟨rfl, hregs r, hp⟩
  · exact (readFlag_ok_iff _ _).2 (.inr ⟨hflag, .inl ⟨hp, rfl⟩⟩)
  · exact (readFlag_ok_iff _ _).2 (.inr ⟨hflag, .inr ⟨hp, rfl⟩⟩)
  · exact (readFlag_error_iff _ _).2 ⟨rfl, hflag, hp⟩

/-! ## Runs -/

/-- What every step keeps holds after every run (R150). -/
theorem runFor_keeps {P : State → Prop} (hstep : ∀ s t, P s → step s = .next t → P t) (k : Nat) {s : State}
    (hs : P s) : P (s.runFor k) := by
  induction k generalizing s with
  | zero => exact hs
  | succ k ih =>
    rw [State.runFor]
    split
    next t h => exact ih (hstep s t hs h)
    next => exact hs
    next => exact hs

/-- A run goes on from the state its first step gives. -/
theorem runFor_succ_of_step {s t : State} (h : step s = .next t) (k : Nat) : s.runFor (k + 1) = t.runFor k := by
  simp only [State.runFor, h]

/-- A run starts only from a running state: otherwise it stays. -/
theorem runFor_of_not_running {s : State} (h : s.status ≠ .running) (k : Nat) : s.runFor k = s := by
  cases k with
  | zero => rfl
  | succ k =>
    rw [State.runFor]
    split
    next t ht => exact absurd (step_next_cases ht).1 h
    next => rfl
    next => rfl

/-- Settles O48: construction gives the invariant and steps keep it. -/
theorem runsStayInTheInvariant : Obligations.RunsStayInTheInvariant := fun p artifact k =>
  runFor_keeps stepsKeepTheInvariant k (constructionSatisfiesTheInvariant p artifact)

/-- Every run of a machine has the machine's parameters. -/
theorem runFor_params (s : State) (k : Nat) : (s.runFor k).params = s.params :=
  runFor_keeps (P := fun u => u.params = s.params) (fun _ _ hu h => (step_program_params h).2.trans hu) k rfl

/-- A step to a running state has completed one instruction (R147). -/
theorem step_tick_of_running {s t : State} (h : step s = .next t) (ht : t.status = .running) :
    t.tick = s.tick + 1 := by
  obtain ⟨-, ⟨-, rfl⟩ | ⟨w, e, -, -, rfl⟩ | ⟨w, i, -, -, hexec⟩⟩ := step_next_cases h
  · cases ht
  · cases ht
  · obtain ⟨u, hu, rfl⟩ := exec_completed hexec (by rw [ht]; rfl)
    rw [State.complete_tick, (effect_ok_frame hu).1]

/-- A running machine has a step (R141 to R143). -/
theorem exists_step_of_running {s : State} (hrun : s.status = .running) : ∃ t, step s = .next t := by
  cases hfetch : s.fetch with
  | none => exact ⟨_, step_of_fetch_eq_none hrun hfetch⟩
  | some w =>
    cases hdecode : decodeWord w with
    | error e => exact ⟨_, step_of_decodeWord_error hrun hfetch hdecode⟩
    | ok i =>
      rw [stepRunsTheDecodedInstruction s w i hrun hfetch hdecode]
      exact everyInstructionAnswersANextState i s

/-- A run that ends running began running. -/
theorem running_of_runFor_running {s : State} {k : Nat} (h : (s.runFor k).status = .running) :
    s.status = .running := by
  by_contra hnot
  exact hnot (runFor_of_not_running hnot k ▸ h)

/-- A machine that still runs after `k` steps has completed `k` instructions. -/
theorem runFor_tick_of_running (k : Nat) {s : State} (h : (s.runFor k).status = .running) :
    (s.runFor k).tick = s.tick + k := by
  induction k generalizing s with
  | zero => rfl
  | succ k ih =>
    obtain ⟨t, hstep⟩ := exists_step_of_running (running_of_runFor_running h)
    rw [runFor_succ_of_step hstep] at h ⊢
    rw [ih h, step_tick_of_running hstep (running_of_runFor_running h)]
    omega

/-- Settles O49: a machine still running after `l + 1` steps would have completed `l + 1` instructions, which the
invariant excludes. -/
theorem limitedRunsEnd : Obligations.LimitedRunsEnd := by
  intro p artifact l k hl
  have hlimit : ∀ k, ((State.construct p artifact).runFor k).params.tickLimit = some l := fun k => by
    rw [runFor_params, construct_params, hl]
  refine ⟨fun hrun => ?_, (runsStayInTheInvariant p artifact k).tickBound l (hlimit k)⟩
  have htick := runFor_tick_of_running (l + 1) hrun
  have hle := (runsStayInTheInvariant p artifact (l + 1)).runningWithinLimit l (hlimit _) hrun
  rw [construct_tick] at htick
  omega

/-! ## An endless run -/

/-- A running machine completes the instruction at `pc` when its rule completes (R145 to R147). -/
theorem step_of_effect_ok {s u : State} {i : Instr} (hrun : s.status = .running)
    (hfetch : s.program.fetch s.pc = some (encode i)) (h : effect i s = .ok u) : step s = .next u.complete := by
  rw [stepRunsTheDecodedInstruction s _ i hrun hfetch (decodeWord_encode i), exec_eq_retire, h, retire_ok]

/-- `SET $0 0; EQL $0 0; JMP 3`: the comparison sets the flag, and the jump lands on itself. -/
def endlessArtifact : List Byte := [0, 0, 0x40, 0, 0, 2, 0, 0, 0, 1, 0x80, 3]

/-- The endless program holds its three instructions. -/
theorem fetch_endlessArtifact :
    (ProgramImage.ofBytes endlessArtifact).fetch 0 = some (encode (.set 0 0 0)) ∧
    (ProgramImage.ofBytes endlessArtifact).fetch 1 = some (encode (.eql 0 0 0)) ∧
    (ProgramImage.ofBytes endlessArtifact).fetch 2 = some (encode (.jmp 0 0 3)) := by decide

/-- The endless program right after construction. -/
def endlessStart : State := State.construct ⟨.unwritten, .unwritten, .literal, none⟩ endlessArtifact

/-- The endless program at its jump, having completed `n` instructions. -/
def spinning (n : Nat) : State := { (endlessStart.writeReg 0 0).setFlag true with pc := 2, tick := n }

/-- The program reaches its jump in two steps. -/
theorem runFor_endlessStart (k : Nat) : endlessStart.runFor (k + 2) = (spinning 2).runFor k := by
  obtain ⟨hset, heql, -⟩ := fetch_endlessArtifact
  have hfirst : step endlessStart = .next (endlessStart.writeReg 0 0).advance.complete :=
    step_of_effect_ok rfl hset rfl
  have hsecond : step (endlessStart.writeReg 0 0).advance.complete = .next (spinning 2) :=
    step_of_effect_ok (u := ((endlessStart.writeReg 0 0).advance.complete.setFlag true).advance) rfl heql rfl
  rw [runFor_succ_of_step hfirst, runFor_succ_of_step hsecond]

/-- The jump lands on itself and counts one tick. -/
theorem step_spinning (n : Nat) : step (spinning n) = .next (spinning (n + 1)) := by
  obtain ⟨-, -, hjmp⟩ := fetch_endlessArtifact
  exact step_of_effect_ok (u := spinning n) rfl hjmp rfl

/-- The jump goes on for ever. -/
theorem runFor_spinning (k n : Nat) : (spinning n).runFor k = spinning (n + k) := by
  induction k generalizing n with
  | zero => rfl
  | succ k ih =>
    rw [runFor_succ_of_step (step_spinning n), ih]
    congr 1
    omega

/-- Settles O50: after its two first steps the program spins on its jump. -/
theorem endlessRunsAreKept : Obligations.EndlessRunsAreKept := by
  refine ⟨endlessArtifact, rfl, fun k => ?_⟩
  rw [← endlessStart]
  match k with
  | 0 | 1 => exact ⟨rfl, rfl⟩
  | k + 2 =>
    rw [runFor_endlessStart, runFor_spinning]
    exact ⟨rfl, Nat.add_comm 2 k⟩

end Sys2Proof.Machine
end

section
/-! PROOFS. What no instruction can see. A relation of states that every state operation keeps, and that leaves every
read the same, is kept by every instruction; three relations are such: agreement up to unwritten bits (10_state.md R33,
R38), another `pc` (R35) and another tick count (R39). -/

namespace Sys2Proof.Machine

/-! ## Simulations -/

/-- Two rules' results: related states, or the same cause. -/
def ResultsRelated (R : State → State → Prop) : Except Cause State → Except Cause State → Prop
  | .ok u, .ok v => R u v
  | .error c, .error d => c = d
  | .ok _, .error _ => False
  | .error _, .ok _ => False

/-- `R` leaves every read the same and every write and every next `pc` keep it. -/
structure Simulation (R : State → State → Prop) : Prop where
  readPort : ∀ {s t}, R s t → ∀ r, s.readPort r = t.readPort r
  readFlag : ∀ {s t}, R s t → s.readFlag = t.readFlag
  params : ∀ {s t}, R s t → s.params = t.params
  writeReg : ∀ {s t}, R s t → ∀ r v, R (s.writeReg r v) (t.writeReg r v)
  setFlag : ∀ {s t}, R s t → ∀ b, R (s.setFlag b) (t.setFlag b)
  appendOut : ∀ {s t}, R s t → ∀ v, R (s.appendOut v) (t.appendOut v)
  branch : ∀ {s t}, R s t → ∀ takenWhen f n,
    R (s.setPc (branchNext takenWhen f n s.pc)) (t.setPc (branchNext takenWhen f n t.pc))

namespace Simulation

variable {R : State → State → Prop} {s t : State}

/-- The next index is that of a branch not taken. -/
theorem advance (hR : Simulation R) (h : R s t) : R s.advance t.advance := hR.branch h true false 0

/-- Related states read the same registers. -/
theorem readReg (hR : Simulation R) (h : R s t) (r : RegIdx) : s.readReg r = t.readReg r := by
  rw [State.readReg, State.readReg, hR.readPort h]

/-- Related states have the same source operands. -/
theorem src (hR : Simulation R) (h : R s t) (typ : TypeTag) (opnd : Byte) : s.src typ opnd = t.src typ opnd := by
  rw [State.src, State.src, hR.readReg h]

/-- Related states have the same comparands. -/
theorem cmpB (hR : Simulation R) (h : R s t) (typ : TypeTag) (opnd : Byte) : s.cmpB typ opnd = t.cmpB typ opnd := by
  rw [State.cmpB, State.cmpB, hR.params h, hR.readReg h]

/-- Related states print the same register. -/
theorem printRegister (hR : Simulation R) (h : R s t) (reg : RegIdx) (typ : TypeTag) :
    s.printRegister reg typ = t.printRegister reg typ := by
  rw [State.printRegister, State.printRegister, hR.readReg h, hR.readPort h]

/-- Related states stay related after the output port. -/
theorem emit (hR : Simulation R) (h : R s t) : ∀ v : Option Int, R (s.emit v) (t.emit v)
  | none => h
  | some v => hR.appendOut h v

end Simulation

/-- Rules that read the same value and go on to related results are related. -/
theorem ResultsRelated.bind {R : State → State → Prop} {α : Type} (x : Except Cause α) {f g : α → Except Cause State}
    (h : ∀ a, ResultsRelated R (f a) (g a)) : ResultsRelated R (x >>= f) (x >>= g) := by
  cases x with
  | error c => exact rfl
  | ok a => exact h a

section
variable {R : State → State → Prop} {s t : State} (hR : Simulation R) (h : R s t)
include hR h

/-- PRT on related states. -/
theorem Simulation.print (reg : RegIdx) (typ : TypeTag) (opnd : Byte) :
    ResultsRelated R (s.print reg typ opnd) (t.print reg typ opnd) := by
  rw [State.print, State.print, hR.printRegister h]
  exact .bind _ fun _ => hR.advance (hR.emit h _)

/-- SET on related states. -/
theorem Simulation.move (reg : RegIdx) (typ : TypeTag) (opnd : Byte) :
    ResultsRelated R (s.move reg typ opnd) (t.move reg typ opnd) := by
  rw [State.move, State.move, hR.src h]
  exact .bind _ fun _ => .bind _ fun v => hR.advance (hR.writeReg h reg v)

/-- ADD, SUB, MUL and DIV on related states. -/
theorem Simulation.arith (fn : AluFn) (reg : RegIdx) (typ : TypeTag) (opnd : Byte) :
    ResultsRelated R (s.arith fn reg typ opnd) (t.arith fn reg typ opnd) := by
  rw [State.arith, State.arith, hR.src h, hR.readReg h]
  exact .bind _ fun _ => .bind _ fun _ => .bind _ fun _ => .bind _ fun v => hR.advance (hR.writeReg h reg v)

/-- JMP and JNP on related states. -/
theorem Simulation.branchRule (takenWhen : Bool) (opnd : Byte) :
    ResultsRelated R (s.branch takenWhen opnd) (t.branch takenWhen opnd) := by
  rw [State.branch, State.branch, hR.readFlag h]
  exact .bind _ fun f => hR.branch h takenWhen f _

/-- EQL, CBP and CLP on related states. -/
theorem Simulation.compare (op : CmpOp) (reg : RegIdx) (typ : TypeTag) (opnd : Byte) :
    ResultsRelated R (s.compare op reg typ opnd) (t.compare op reg typ opnd) := by
  rw [State.compare, State.compare, hR.cmpB h, hR.readReg h]
  exact .bind _ fun _ => .bind _ fun _ => hR.advance (hR.setFlag h _)

/-- Every instruction's rule keeps a simulation. -/
theorem Simulation.effect (i : Instr) : ResultsRelated R (effect i s) (effect i t) := by
  cases i with
  | prt r t n => exact hR.print h r t n
  | set r t n => exact hR.move h r t n
  | add r t n | sub r t n | mul r t n | div r t n => exact hR.arith h _ r t n
  | jmp r t n | jnp r t n => exact hR.branchRule h _ n
  | eql r t n | cbp r t n | clp r t n => exact hR.compare h _ r t n

/-- An instruction on related states completes on both to related states before completion, or raises one cause. -/
theorem Simulation.exec_next {i : Instr} {s' t' : State} (hs : exec i s = .next s') (ht : exec i t = .next t') :
    (∃ u v, R u v ∧ s' = u.complete ∧ t' = v.complete) ∨
      ∃ c, s' = s.raise c (encode i) ∧ t' = t.raise c (encode i) := by
  have hrel := hR.effect h i
  rcases (exec_next_iff i s s').1 hs with ⟨u, hu, rfl⟩ | ⟨c, hc, rfl⟩ <;>
    rcases (exec_next_iff i t t').1 ht with ⟨v, hv, rfl⟩ | ⟨d, hd, rfl⟩
  · rw [hu, hv] at hrel
    exact .inl ⟨u, v, hrel, rfl, rfl⟩
  · rw [hu, hd] at hrel
    exact hrel.elim
  · rw [hc, hv] at hrel
    exact hrel.elim
  · rw [hc, hd] at hrel
    obtain rfl : c = d := hrel
    exact .inr ⟨c, rfl, rfl⟩

end

/-! ## Unwritten bits -/

namespace State.AgreeWhereWritten

variable {s t : State}

/-- Agreeing states have the same written bits. -/
theorem regWritten_eq (h : s.AgreeWhereWritten t) (r : RegIdx) : s.regWritten r = t.regWritten r := by
  rw [State.regWritten, State.regWritten, h.written]

/-- The same write keeps the agreement: the register's bits are equal where it is written. -/
theorem writeReg (h : s.AgreeWhereWritten t) (r : RegIdx) (v : Int) :
    (s.writeReg r v).AgreeWhereWritten (t.writeReg r v) :=
  { h with
    written := by rw [State.writeReg_written, State.writeReg_written, h.written]
    regs := fun q hq => by
      rw [reg_writeReg, reg_writeReg]
      rw [regWritten_writeReg] at hq
      split
      · rfl
      · exact h.regs q (by rwa [if_neg (by assumption)] at hq) }

/-- A read port answers from a written register or from the parameters. -/
theorem readPort (h : s.AgreeWhereWritten t) (r : RegIdx) : s.readPort r = t.readPort r := by
  rw [State.readPort, State.readPort, ← h.regWritten_eq r, h.params]
  split
  · rw [h.regs r (by assumption)]
  · rfl

/-- The flag is read from a written flag or from the parameters. -/
theorem readFlag (h : s.AgreeWhereWritten t) : s.readFlag = t.readFlag := by
  rw [State.readFlag, State.readFlag, ← h.flagWritten, h.params]
  split
  · rw [h.flag (by assumption)]
  · rfl

/-- The same change of `pc` keeps the agreement. -/
theorem setPc (h : s.AgreeWhereWritten t) (n : Nat) : (s.setPc n).AgreeWhereWritten (t.setPc n) := { h with pc := rfl }

/-- Agreement is a simulation. -/
theorem simulation : Simulation State.AgreeWhereWritten where
  readPort := readPort
  readFlag := readFlag
  params := params
  writeReg := writeReg
  setFlag h b := { h with flagWritten := rfl, flag := fun _ => rfl }
  appendOut h v := { h with out := by rw [State.appendOut_out, State.appendOut_out, h.out] }
  branch h takenWhen f n := by
    rw [h.pc]
    exact h.setPc _

/-- Completion keeps the agreement. -/
theorem complete (h : s.AgreeWhereWritten t) : s.complete.AgreeWhereWritten t.complete :=
  { h with
    tick := by rw [State.complete_tick, State.complete_tick, h.tick]
    status := by rw [State.complete_status, State.complete_status, h.tick, h.status, h.params] }

/-- The same fault keeps the agreement. -/
theorem raise (h : s.AgreeWhereWritten t) (c : Cause) (w : Word) : (s.raise c w).AgreeWhereWritten (t.raise c w) :=
  { h with status := by rw [State.raise_status, State.raise_status, h.pc] }

/-- The halt past the end keeps the agreement. -/
theorem halt (h : s.AgreeWhereWritten t) : s.halt.AgreeWhereWritten t.halt := { h with status := rfl }

/-- Agreeing states fetch the same word. -/
theorem fetch (h : s.AgreeWhereWritten t) : s.fetch = t.fetch := by rw [State.fetch, State.fetch, h.program, h.pc]

/-- An instruction on agreeing states leaves agreeing states. -/
theorem exec (h : s.AgreeWhereWritten t) (i : Instr) : OutcomesAgree (exec i s) (exec i t) := by
  obtain ⟨s', hs⟩ := everyInstructionAnswersANextState i s
  obtain ⟨t', ht⟩ := everyInstructionAnswersANextState i t
  rw [hs, ht]
  rcases simulation.exec_next h hs ht with ⟨u, v, huv, rfl, rfl⟩ | ⟨c, rfl, rfl⟩
  · exact huv.complete
  · exact h.raise c _

end State.AgreeWhereWritten

/-- Settles O51: agreeing states stop alike, halt alike, fault alike and run the same instruction. -/
theorem unwrittenBitsAreNeverSeen : Obligations.UnwrittenBitsAreNeverSeen := by
  intro s t h
  unfold step
  rw [← h.status, ← h.fetch]
  cases s.status with
  | halted => exact rfl
  | faulted c p w => exact rfl
  | running =>
    cases s.fetch with
    | none => exact h.halt
    | some w =>
      dsimp only
      cases decodeWord w with
      | error e => exact h.raise _ w
      | ok i => exact h.exec i

/-! ## The program counter and the tick count -/

/-- `t` is `s` but for `pc`. -/
def SameButPc (s t : State) : Prop := ∃ n, t = { s with pc := n }

/-- `t` is `s` but for the tick count. -/
def SameButTick (s t : State) : Prop := ∃ n, t = { s with tick := n }

/-- Another `pc` is a simulation. -/
theorem simulation_sameButPc : Simulation SameButPc where
  readPort := by rintro s _ ⟨n, rfl⟩ r; rfl
  readFlag := by rintro s _ ⟨n, rfl⟩; rfl
  params := by rintro s _ ⟨n, rfl⟩; rfl
  writeReg := by rintro s _ ⟨n, rfl⟩ r v; exact ⟨n, rfl⟩
  setFlag := by rintro s _ ⟨n, rfl⟩ b; exact ⟨n, rfl⟩
  appendOut := by rintro s _ ⟨n, rfl⟩ v; exact ⟨n, rfl⟩
  branch := by rintro s _ ⟨n, rfl⟩ takenWhen f k; exact ⟨_, rfl⟩

/-- Another tick count is a simulation. -/
theorem simulation_sameButTick : Simulation SameButTick where
  readPort := by rintro s _ ⟨n, rfl⟩ r; rfl
  readFlag := by rintro s _ ⟨n, rfl⟩; rfl
  params := by rintro s _ ⟨n, rfl⟩; rfl
  writeReg := by rintro s _ ⟨n, rfl⟩ r v; exact ⟨n, rfl⟩
  setFlag := by rintro s _ ⟨n, rfl⟩ b; exact ⟨n, rfl⟩
  appendOut := by rintro s _ ⟨n, rfl⟩ v; exact ⟨n, rfl⟩
  branch := by rintro s _ ⟨n, rfl⟩ takenWhen f k; exact ⟨n, rfl⟩

/-- Settles O40: a completed rule's `pc` by its taken operand, and a simulation up to `pc`. -/
theorem pcFollowsSequenceOrLanding : Obligations.PcFollowsSequenceOrLanding := by
  refine ⟨fun i s t _ h hfault => ?_, fun i s t u n ht hu => ?_⟩
  · obtain ⟨v, hv, rfl⟩ := exec_completed h hfault
    rw [State.complete_pc, effect_ok_pc hv]
    exact ⟨fun u hu => by rw [hu]; rfl, fun hnone => by rw [hnone]; rfl⟩
  · rcases simulation_sameButPc.exec_next ⟨n, rfl⟩ ht hu with ⟨v, _, ⟨m, rfl⟩, rfl, rfl⟩ | ⟨c, rfl, rfl⟩
    · exact ⟨⟨rfl, rfl⟩, ⟨rfl, rfl⟩, rfl, rfl, rfl⟩
    · exact ⟨⟨rfl, rfl⟩, ⟨rfl, rfl⟩, rfl, rfl, rfl⟩

/-- Settles O41: completion adds one tick to a rule's frame, a fault none, and a simulation up to the tick count. -/
theorem tickCountsCompletions : Obligations.TickCountsCompletions := by
  refine ⟨fun i s t hrun h => ?_, fun i s t u n ht hu => ?_⟩
  · rcases (exec_next_iff i s t).1 h with ⟨v, hv, rfl⟩ | ⟨c, -, rfl⟩
    · refine ⟨fun _ => by rw [State.complete_tick, (effect_ok_frame hv).1], fun hfault => ?_⟩
      rw [effect_ok_isFault hrun hv] at hfault
      cases hfault
    · exact ⟨nofun, fun _ => rfl⟩
  · rcases simulation_sameButTick.exec_next ⟨n, rfl⟩ ht hu with ⟨v, _, ⟨m, rfl⟩, rfl, rfl⟩ | ⟨c, rfl, rfl⟩
    · exact ⟨⟨rfl, rfl⟩, ⟨rfl, rfl⟩, rfl, rfl⟩
    · exact ⟨⟨rfl, rfl⟩, ⟨rfl, rfl⟩, rfl, rfl⟩

/-! ## Ignored fields -/

/-- Without its word a fault record is the same for every instruction (R242). -/
theorem eraseWord_raise (s : State) (c : Cause) (w : Word) :
    (s.raise c w).eraseWord = { s with status := .faulted c (some s.pc) none } := rfl

/-- Two instructions with one rule differ in the word of a fault record alone. -/
theorem sameEffect_of_effect_eq {i j : Instr} {s : State} (h : effect i s = effect j s) : sameEffect i j s := by
  rw [sameEffect, exec_eq_retire, exec_eq_retire, h]
  cases effect j s with
  | ok u => rw [retire_ok, retire_ok]
  | error c => simp only [retire_error, nextState?, Option.map_some, eraseWord_raise]

/-- PRT of type 2 is one rule, whatever the operand (R160). -/
theorem print_register_eq (s : State) (r : RegIdx) (n n' : Byte) : s.print r 2#2 n = s.print r 2#2 n' := by
  have hport : ∀ qa, outputPort 2#2 (smag n) qa = outputPort 2#2 (smag n') qa := fun _ => rfl
  simp only [State.print, hport]

/-- PRT of types 1 and 3 is one rule, whatever the register and the operand (R160). -/
theorem print_other_eq {t t' : TypeTag} (h0 : t ≠ 0#2) (h2 : t ≠ 2#2) (h0' : t' ≠ 0#2) (h2' : t' ≠ 2#2) (s : State)
    (r r' : RegIdx) (n n' : Byte) : s.print r t n = s.print r' t' n' := by
  rw [print_other h0 h2, print_other h0' h2']

/-- Types 0, 2 and 3 pass the range check and give the signed operand alike (R144). -/
theorem checkSrc_src_eq {t t' : TypeTag} (ht : t ≠ 1#2) (ht' : t' ≠ 1#2) (s : State) (n : Byte) :
    checkSrc t n = checkSrc t' n ∧ s.src t n = s.src t' n := by
  have hok : ∀ t : TypeTag, t ≠ 1#2 → checkSrc t n = .ok () := fun t ht => (checkSrc_ok_iff t n).2 fun h => ht h.1
  have hsrc : ∀ t : TypeTag, t ≠ 1#2 → s.src t n = .ok (smag n) := fun t ht =>
    (src_ok_iff (fun h => ht h.1) _).2 (.inr ⟨ht, rfl⟩)
  exact ⟨(hok t ht).trans (hok t' ht').symm, (hsrc t ht).trans (hsrc t' ht').symm⟩

/-- Types 0, 2 and 3 of SET are one rule (R161). -/
theorem move_typ_eq {t t' : TypeTag} (ht : t ≠ 1#2) (ht' : t' ≠ 1#2) (s : State) (r : RegIdx) (n : Byte) :
    s.move r t n = s.move r t' n := by
  obtain ⟨hcheck, hsrc⟩ := checkSrc_src_eq ht ht' s n
  rw [State.move, State.move, hcheck, hsrc]

/-- Types 0, 2 and 3 of the arithmetic are one rule (R180 to R183). -/
theorem arith_typ_eq {t t' : TypeTag} (ht : t ≠ 1#2) (ht' : t' ≠ 1#2) (s : State) (fn : AluFn) (r : RegIdx) (n : Byte) :
    s.arith fn r t n = s.arith fn r t' n := by
  obtain ⟨hcheck, hsrc⟩ := checkSrc_src_eq ht ht' s n
  rw [State.arith, State.arith, hcheck, hsrc]

/-- Types that compare no register are one rule (R223). -/
theorem compare_typ_eq {t t' : TypeTag} {s : State} (ht : ¬ s.comparesRegister t) (ht' : ¬ s.comparesRegister t')
    (op : CmpOp) (r : RegIdx) (n : Byte) : s.compare op r t n = s.compare op r t' n := by
  have hcmp : s.cmpB t n = s.cmpB t' n :=
    ((cmpB_ok_iff s t n _).2 (.inr ⟨ht, rfl⟩)).trans ((cmpB_ok_iff s t' n _).2 (.inr ⟨ht', rfl⟩)).symm
  rw [State.compare, State.compare, hcmp]

/-- A comparison whose type is not 1, or under `CMP_TYPE1 = Literal`, compares no register (R223). -/
theorem not_comparesRegister {s : State} {t : TypeTag} (h : s.params.cmpType1 = .literal ∨ t ≠ 1#2) :
    ¬ s.comparesRegister t := by
  rintro ⟨hcmp, ht⟩
  rcases h with hlit | hne
  · rw [hcmp] at hlit
    cases hlit
  · exact hne ht

/-- Settles O44: each pair is one rule. -/
theorem ignoredFieldsHaveNoEffect : Obligations.IgnoredFieldsHaveNoEffect := by
  intro r r' t t' n n' s
  refine ⟨sameEffect_of_effect_eq ?_, sameEffect_of_effect_eq (print_register_eq s r n n'),
    sameEffect_of_effect_eq ?_, sameEffect_of_effect_eq ?_, sameEffect_of_effect_eq rfl, sameEffect_of_effect_eq rfl,
    fun ht ht' => ?_, fun hlit => ?_⟩
  · exact (print_literal s r n).trans (print_literal s r' n).symm
  · exact print_other_eq (by decide) (by decide) (by decide) (by decide) s r r' n n
  · exact print_other_eq (by decide) (by decide) (by decide) (by decide) s r r' n n'
  · have harith := fun fn => arith_typ_eq ht ht' s fn r n
    exact ⟨sameEffect_of_effect_eq (move_typ_eq ht ht' s r n), sameEffect_of_effect_eq (harith .add),
      sameEffect_of_effect_eq (harith .sub), sameEffect_of_effect_eq (harith .mul),
      sameEffect_of_effect_eq (harith .div)⟩
  · have hcompare := fun op => compare_typ_eq (not_comparesRegister (hlit.imp_right And.left))
      (not_comparesRegister (hlit.imp_right And.right)) op r n
    exact ⟨sameEffect_of_effect_eq (hcompare .eql), sameEffect_of_effect_eq (hcompare .cbp),
      sameEffect_of_effect_eq (hcompare .clp)⟩

end Sys2Proof.Machine
end

section
/-! PROOFS. The meaning of each instruction (41_print_and_set.md to 44_compare.md): its rule completes with one write and
one tick, or raises a cause and changes nothing else. -/

namespace Sys2Proof.Machine

/-! ## Completion and faults of a rule -/

/-- An instruction whose rule raises a cause takes that fault (R242). -/
theorem raises_of_effect_error {i : Instr} {s : State} {c : Cause} (h : effect i s = .error c) : raises i s c := by
  rw [raises, exec_eq_retire, h]
  rfl

/-- An instruction whose rule completes ends as R146 and R147 say, with what its rule wrote. -/
theorem exec_of_effect_ok {i : Instr} {s u : State} (h : effect i s = .ok u) :
    exec i s = .next u.complete ∧ s.completedTo u.complete u.pc := by
  obtain ⟨htick, hstatus, hprogram, hparams⟩ := effect_ok_frame h
  refine ⟨by rw [exec_eq_retire, h, retire_ok], rfl, ?_, ?_, hprogram, hparams⟩
  · rw [State.complete_tick, htick]
  · rw [complete_status_eq, State.statusAfterTick, State.statusAfterTick, hparams, htick, hstatus]

/-- A rule that writes one register and goes on: the frame of SET and of the arithmetic. -/
theorem exec_writes {i : Instr} {s : State} {r : RegIdx} {v : Int} (h : effect i s = .ok (s.writeReg r v).advance)
    (hv : InByteRange v) :
    ∃ t, exec i s = .next t ∧ s.wroteOnly t r v ∧ s.sameFlag t ∧ t.out = s.out ∧ s.completedTo t (s.pc + 1) := by
  obtain ⟨hexec, hcompleted⟩ := exec_of_effect_ok h
  have hwrote : s.wroteOnly (s.writeReg r v) r v := wroteOnly_writeReg s r hv
  exact ⟨_, hexec, hwrote, ⟨rfl, rfl⟩, rfl, hcompleted⟩

/-! ## PRT and SET -/

/-- A rule that writes the output stream alone and goes on: the frame of PRT. -/
theorem exec_prints {i : Instr} {s u : State} {out : List Int} (h : effect i s = .ok u)
    (hu : u = { s with out := out, pc := s.pc + 1 }) :
    ∃ t, exec i s = .next t ∧ t.out = out ∧ s.sameRegisters t ∧ s.sameFlag t ∧ s.completedTo t (s.pc + 1) := by
  obtain ⟨hexec, hcompleted⟩ := exec_of_effect_ok h
  subst hu
  exact ⟨_, hexec, rfl, ⟨rfl, rfl⟩, ⟨rfl, rfl⟩, hcompleted⟩

/-- Settles O20, by the type. -/
theorem printFollowsItsType : Obligations.PrintFollowsItsType := by
  refine ⟨fun reg typ opnd => rfl, fun reg opnd s => ⟨?_, fun v hv => ?_, fun hun => ?_, ?_, ?_⟩⟩
  · exact exec_prints (print_literal s reg opnd) rfl
  · exact exec_prints (print_register opnd hv) rfl
  · exact raises_of_effect_error ((print_error_iff s reg 2#2 opnd _).2 ⟨rfl, rfl, hun⟩)
  · exact exec_prints (print_other (by decide) (by decide) s reg opnd) rfl
  · exact exec_prints (print_other (by decide) (by decide) s reg opnd) rfl

/-- A source operand that holds a value passes the range check (R144). -/
theorem not_sourceOutOfRange_of_holds {s : State} {typ : TypeTag} {opnd : Byte} {v : Int}
    (h : s.sourceHolds typ opnd v) : ¬ sourceOutOfRange typ opnd := by
  rintro ⟨htyp, hge⟩
  rcases h with ⟨-, hlt, -⟩ | ⟨hne, -⟩
  · omega
  · exact hne htyp

/-- A source operand that is unreadable passes the range check (R144). -/
theorem not_sourceOutOfRange_of_unreadable {s : State} {typ : TypeTag} {opnd : Byte}
    (h : s.sourceUnreadable typ opnd) : ¬ sourceOutOfRange typ opnd := by
  rintro ⟨-, hge⟩
  obtain ⟨-, hlt, -⟩ := h
  omega

/-- Settles O21: the range check, then the source, then the write. -/
theorem setWritesItsOperand : Obligations.SetWritesItsOperand := by
  refine fun reg typ opnd s => ⟨rfl, fun hrange => ?_, fun hun => ?_, fun v hv => ?_⟩
  · exact raises_of_effect_error ((move_error_iff s reg typ opnd _).2 (.inl ⟨rfl, hrange⟩))
  · exact raises_of_effect_error
      ((move_error_iff s reg typ opnd _).2 (.inr ⟨not_sourceOutOfRange_of_unreadable hun, rfl, hun⟩))
  · exact exec_writes ((move_ok_iff s _ reg typ opnd).2 ⟨not_sourceOutOfRange_of_holds hv, v, hv, rfl⟩)
      (sourceHolds_inByteRange hv)

/-! ## Arithmetic -/

section
variable {i : Instr} {fn : AluFn} {reg : RegIdx} {typ : TypeTag} {opnd : Byte} {s : State}
  (hi : effect i s = s.arith fn reg typ opnd)
include hi

/-- A type-1 operand byte of 16 or more (R144). -/
theorem arith_raises_range (hrange : sourceOutOfRange typ opnd) : raises i s .registerOutOfRange :=
  raises_of_effect_error (hi.trans ((arith_error_iff ..).2 (.inl ⟨rfl, hrange⟩)))

/-- An unreadable target (R33). -/
theorem arith_raises_target (hrange : ¬ sourceOutOfRange typ opnd) (hun : s.unreadable reg) :
    raises i s .uninitializedRegister :=
  raises_of_effect_error (hi.trans ((arith_error_iff ..).2 (.inr ⟨hrange, .inl ⟨rfl, hun⟩⟩)))

/-- An unreadable source (R33, R144). -/
theorem arith_raises_source {a : Int} (ha : s.holds reg a) (hun : s.sourceUnreadable typ opnd) :
    raises i s .uninitializedRegister :=
  raises_of_effect_error (hi.trans ((arith_error_iff ..).2
    (.inr ⟨not_sourceOutOfRange_of_unreadable hun, .inr ⟨a, ha, .inl ⟨rfl, hun⟩⟩⟩)))

/-- A zero divisor (R183). -/
theorem arith_raises_divideByZero {a : Int} (hfn : fn = .div) (ha : s.holds reg a) (hb : s.sourceHolds typ opnd 0) :
    raises i s .divideByZero :=
  raises_of_effect_error (hi.trans ((arith_error_iff ..).2
    (.inr ⟨not_sourceOutOfRange_of_holds hb, .inr ⟨a, ha, .inr ⟨0, hb, .inl ⟨rfl, hfn, rfl⟩⟩⟩⟩)))

/-- An exact result out of range (R184). -/
theorem arith_raises_overflow {a b : Int} (ha : s.holds reg a) (hb : s.sourceHolds typ opnd b)
    (hdiv : ¬ (fn = .div ∧ b = 0)) (hr : ¬ InByteRange (aluExact fn a b)) : raises i s .arithmeticOverflow :=
  raises_of_effect_error (hi.trans ((arith_error_iff ..).2
    (.inr ⟨not_sourceOutOfRange_of_holds hb, .inr ⟨a, ha, .inr ⟨b, hb, .inr ⟨rfl, hdiv, hr⟩⟩⟩⟩)))

/-- An exact result in range is written to the target alone (R180 to R184). -/
theorem arith_writes {a b : Int} (ha : s.holds reg a) (hb : s.sourceHolds typ opnd b)
    (hdiv : ¬ (fn = .div ∧ b = 0)) (hr : InByteRange (aluExact fn a b)) :
    ∃ t, exec i s = .next t ∧ s.wroteOnly t reg (aluExact fn a b) ∧ s.sameFlag t ∧ t.out = s.out ∧
      s.completedTo t (s.pc + 1) :=
  exec_writes (hi.trans ((arith_ok_iff ..).2 ⟨not_sourceOutOfRange_of_holds hb, a, b, ha, hb, hdiv, hr, rfl⟩)) hr

/-- An arithmetic instruction other than DIV follows the rule of ADD, SUB and MUL with its exact operation. -/
theorem exactArithmetic_of_arith {code : BitVec 4} (henc : encode i = encodeFields ⟨code, reg, typ, opnd⟩)
    (hfn : fn ≠ .div) : ExactArithmetic i code (aluExact fn) reg typ opnd s :=
  ⟨henc, arith_raises_range hi, arith_raises_target hi, fun _ ha hun => arith_raises_source hi ha hun,
    fun _ _ ha hb hr => arith_raises_overflow hi ha hb (fun h => hfn h.1) hr,
    fun _ _ ha hb hr => arith_writes hi ha hb (fun h => hfn h.1) hr⟩

end

/-- Settles O22: ADD is the arithmetic rule with the exact sum. -/
theorem addWritesTheExactSum : Obligations.AddWritesTheExactSum := fun _ _ _ _ =>
  exactArithmetic_of_arith (fn := .add) rfl rfl nofun

/-- Settles O23: SUB is the arithmetic rule with the exact difference, target minus source. -/
theorem subWritesTheExactDifference : Obligations.SubWritesTheExactDifference := fun _ _ _ _ =>
  exactArithmetic_of_arith (fn := .sub) rfl rfl nofun

/-- Settles O24: MUL is the arithmetic rule with the exact product. -/
theorem mulWritesTheExactProduct : Obligations.MulWritesTheExactProduct := fun _ _ _ _ =>
  exactArithmetic_of_arith (fn := .mul) rfl rfl nofun

/-- Of the quotients of values in range by a divisor other than 0, only -128 by -1 leaves the range (R183, R184). -/
theorem tdiv_inByteRange {a b : Int} (ha : InByteRange a) (hb : b ≠ 0) (hover : ¬ (a = -128 ∧ b = -1)) :
    InByteRange (a.tdiv b) := by
  obtain ⟨hlo, hhi⟩ := ha
  obtain rfl | rfl | hb2 : b = 1 ∨ b = -1 ∨ 2 ≤ b.natAbs := by omega
  · rw [Int.tdiv_one]
    exact ⟨hlo, hhi⟩
  · rw [Int.tdiv_neg, Int.tdiv_one]
    constructor <;> omega
  · have hmag : (a.tdiv b).natAbs ≤ a.natAbs / 2 := by
      rw [Int.natAbs_tdiv]
      exact Nat.div_le_div_left hb2 (by decide)
    constructor <;> omega

/-- Settles O25: DIV is the arithmetic rule with the quotient rounded toward zero. -/
theorem divWritesTheTruncatedQuotient : Obligations.DivWritesTheTruncatedQuotient := by
  intro reg typ opnd s
  have hi : effect (.div reg typ opnd) s = s.arith .div reg typ opnd := rfl
  have hexact : ∀ a b, aluExact .div a b = a.tdiv b := quot_eq_tdiv
  refine ⟨rfl, arith_raises_range hi, arith_raises_target hi, fun _ ha hun => arith_raises_source hi ha hun,
    fun _ ha hb => arith_raises_divideByZero hi rfl ha hb,
    fun ha hb => arith_raises_overflow hi ha hb (by decide) (by decide), fun a b ha hb hne hover => ?_⟩
  rw [← hexact]
  refine arith_writes hi ha hb (fun h => hne h.2) ?_
  rw [hexact]
  exact tdiv_inByteRange (holds_inByteRange ha) hne hover

/-- Settles O26: the remainder of the quotient rounded toward zero. -/
theorem quotientRoundsTowardZero : Obligations.QuotientRoundsTowardZero := by
  intro a b hb
  have hrem : a - b * quot a b = a.tmod b := by
    rw [quot_eq_tdiv, Int.tmod_def]
  rw [hrem]
  refine ⟨?_, fun ha => Int.tmod_nonneg b ha, fun ha => ?_⟩
  · rw [Int.natAbs_tmod]
    exact Nat.mod_lt _ (Int.natAbs_pos.2 hb)
  · have hneg : 0 ≤ (-a).tmod b := Int.tmod_nonneg b (by omega)
    rw [Int.neg_tmod] at hneg
    omega

/-! ## Branches -/

/-- A branch whose flag holds a value goes to its landing or to the next index (R200 to R203). -/
theorem exec_branches {i : Instr} {s : State} {takenWhen f : Bool} {opnd : Byte}
    (hi : effect i s = s.branch takenWhen opnd) (hf : s.flagHolds f) :
    ∃ t, exec i s = .next t ∧ s.sameRegisters t ∧ s.sameFlag t ∧ t.out = s.out ∧
      s.completedTo t (if f = takenWhen then (max 0 ((opnd.toNat : Int) - 2)).toNat + 1 else s.pc + 1) := by
  obtain ⟨hexec, hcompleted⟩ := exec_of_effect_ok (hi.trans ((branch_ok_iff ..).2 ⟨f, hf, rfl⟩))
  exact ⟨_, hexec, ⟨rfl, rfl⟩, ⟨rfl, rfl⟩, rfl, hcompleted⟩

/-- A branch on an unreadable flag (R38). -/
theorem branch_raises {i : Instr} {s : State} {takenWhen : Bool} {opnd : Byte}
    (hi : effect i s = s.branch takenWhen opnd) (hun : s.flagUnreadable) : raises i s .uninitializedFlag :=
  raises_of_effect_error (hi.trans ((branch_error_iff ..).2 ⟨rfl, hun⟩))

/-- Settles O27: JMP is the branch taken on a true flag. -/
theorem jmpIsTakenWhenTheFlagIsSet : Obligations.JmpIsTakenWhenTheFlagIsSet := by
  intro reg typ opnd s
  have hi : effect (.jmp reg typ opnd) s = s.branch true opnd := rfl
  exact ⟨rfl, exec_branches hi, exec_branches hi, branch_raises hi⟩

/-- Settles O28: JNP is the branch taken on a false flag. -/
theorem jnpIsTakenWhenTheFlagIsClear : Obligations.JnpIsTakenWhenTheFlagIsClear := by
  intro reg typ opnd s
  have hi : effect (.jnp reg typ opnd) s = s.branch false opnd := rfl
  exact ⟨rfl, exec_branches hi, exec_branches hi, branch_raises hi⟩

/-- Settles O29: the landing is `u - 2 + 1` in natural numbers, and an operand is a byte. -/
theorem branchLandings : Obligations.BranchLandings := by
  intro b
  have hb := b.isLt
  rw [landing_eq]
  omega

/-! ## Comparisons -/

/-- A comparison follows the rule EQL, CBP and CLP share, with its comparator. -/
theorem comparisonRule_of_compare {i : Instr} {op : CmpOp} {code : BitVec 4} {reg : RegIdx} {typ : TypeTag}
    {opnd : Byte} {s : State} (henc : encode i = encodeFields ⟨code, reg, typ, opnd⟩)
    (hi : effect i s = s.compare op reg typ opnd) : ComparisonRule i code (comparator op) reg typ opnd s := by
  have herror {c : Cause} (h : s.compare op reg typ opnd = .error c) : raises i s c :=
    raises_of_effect_error (hi.trans h)
  refine ⟨henc, fun hcmp hge => ?_, fun hcmp hlt hun => ?_, fun b hb hun => ?_, fun a b hb ha => ?_⟩
  · exact herror ((compare_error_iff ..).2 (.inl ((cmpB_error_iff ..).2 ⟨hcmp, .inl ⟨rfl, hge⟩⟩)))
  · exact herror ((compare_error_iff ..).2 (.inl ((cmpB_error_iff ..).2 ⟨hcmp, .inr ⟨rfl, hlt, hun⟩⟩)))
  · exact herror ((compare_error_iff ..).2 (.inr ⟨b, hb, rfl, hun⟩))
  · obtain ⟨hexec, hcompleted⟩ := exec_of_effect_ok (hi.trans ((compare_ok_iff ..).2 ⟨a, b, hb, ha, rfl⟩))
    exact ⟨_, hexec, rfl, rfl, ⟨rfl, rfl⟩, rfl, hcompleted⟩

/-- Settles O30: EQL is the comparison for equality. -/
theorem eqlSetsTheFlagOnEquality : Obligations.EqlSetsTheFlagOnEquality := fun _ _ _ _ =>
  comparisonRule_of_compare (op := .eql) rfl rfl

/-- Settles O31: CBP is the comparison for target greater than comparand. -/
theorem cbpSetsTheFlagOnGreater : Obligations.CbpSetsTheFlagOnGreater := fun _ _ _ _ =>
  comparisonRule_of_compare (op := .cbp) rfl rfl

/-- Settles O32: CLP is the comparison for target less than comparand. -/
theorem clpSetsTheFlagOnLess : Obligations.ClpSetsTheFlagOnLess := fun _ _ _ _ =>
  comparisonRule_of_compare (op := .clp) rfl rfl

end Sys2Proof.Machine
end

section
/-! PROOFS. The sign laws (30_encoding.md section 4) and the load of an artifact (20_memory.md R62): bytes as numbers and
words as four bytes. -/

namespace Sys2Proof

/-! ## Sign-magnitude bytes -/

/-- Bit 7 as arithmetic (R87). -/
theorem getLsbD_sign (b : Byte) : b.getLsbD 7 = decide (128 ≤ b.toNat) := b.msb_eq_decide

/-- The value of a byte as arithmetic (R87). -/
theorem smag_eq (b : Byte) : smag b = if 128 ≤ b.toNat then 128 - (b.toNat : Int) else b.toNat := by
  have hb := b.isLt
  by_cases h : 128 ≤ b.toNat
  · rw [if_pos h, smag_of_sign_set (by rw [getLsbD_sign, decide_eq_true h])]
    omega
  · rw [if_neg h, smag_of_sign_clear (by rw [getLsbD_sign, decide_eq_false h])]
    omega

/-- The byte of a literal is not 0x80, and its value is the literal (R87, R88). -/
theorem smag_of_smenc {v : Int} {b : Byte} (h : smenc v = some b) : b ≠ 0x80#8 ∧ smag b = v := by
  have hmag : v.natAbs ≤ 127 := by
    by_contra hgt
    rw [smenc_eq_none (by omega)] at h
    cases h
  rw [smag_eq, ne_eq, ← BitVec.toNat_inj, BitVec.toNat_ofNat]
  rcases lt_or_ge v 0 with hneg | hnonneg
  · obtain ⟨_, hb, htoNat⟩ := smenc_of_neg hmag hneg
    rw [h] at hb
    cases hb
    constructor
    · omega
    · rw [if_pos (by omega)]
      omega
  · obtain ⟨_, hb, htoNat⟩ := smenc_of_nonneg hmag hnonneg
    rw [h] at hb
    cases hb
    constructor
    · omega
    · rw [if_neg (by omega)]
      omega

/-- A byte other than 0x80 is the only one with its value (R87). -/
theorem eq_of_smag_eq {b c : Byte} (hb : b ≠ 0x80#8) (hc : c ≠ 0x80#8) (h : smag b = smag c) : b = c := by
  have hblt := b.isLt
  have hclt := c.isLt
  rw [ne_eq, ← BitVec.toNat_inj, BitVec.toNat_ofNat] at hb hc
  rw [smag_eq, smag_eq] at h
  refine BitVec.eq_of_toNat_eq ?_
  split at h <;> split at h <;> omega

/-- A byte other than 0x80 comes back from its value (R88). -/
theorem smenc_smag {b : Byte} (h : b ≠ 0x80#8) : smenc (smag b) = some b := by
  have hrange := Machine.smag_range b
  obtain ⟨c, hc⟩ := exists_smenc_eq_some (v := smag b) (by omega)
  obtain ⟨hne, hval⟩ := smag_of_smenc hc
  rw [hc, eq_of_smag_eq hne h hval]

/-- Settles O10: the byte of a literal has its value, and only 0x80 shares its value with another byte. -/
theorem signMagnitudeLaws : Obligations.SignMagnitudeLaws := by
  refine ⟨fun v hlo hhi => ?_, fun b hb => smenc_smag hb, rfl⟩
  obtain ⟨b, hb⟩ := exists_smenc_eq_some (v := v) (by omega)
  exact ⟨b, hb, (smag_of_smenc hb).2⟩

/-! ## Words of bytes -/

/-- A byte appended below a bit vector. -/
theorem toNat_append_byte {n : Nat} (x : BitVec n) (b : Byte) : (x ++ b).toNat = x.toNat * 2 ^ 8 + b.toNat := by
  rw [BitVec.toNat_append, ← Nat.shiftLeft_add_eq_or_of_lt b.isLt, Nat.shiftLeft_eq]

/-- A word as the number its bytes spell, the first most significant (R62). -/
theorem toNat_wordOfBytes (b0 b1 b2 b3 : Byte) : (wordOfBytes b0 b1 b2 b3).toNat =
    b0.toNat * 2 ^ 24 + b1.toNat * 2 ^ 16 + b2.toNat * 2 ^ 8 + b3.toNat := by
  rw [wordOfBytes, toNat_append_byte, toNat_append_byte, toNat_append_byte]
  omega

namespace Machine

/-- The image of an artifact reads the artifact's bytes (R62). -/
theorem cellsRead_artifact {artifact : List Byte} {a : Nat} {b : Byte} (h : artifact[a]? = some b) :
    cellsRead (ProgramImage.ofBytes artifact).cells a = b := by
  have hread := cellsRead_ofBytes artifact 0 a
  rw [Nat.zero_add, List.getD_eq_getElem?_getD, h, Option.getD_some] at hread
  exact hread

/-- Word `i` of a loaded artifact is its bytes `4 i` to `4 i + 3`, most-significant first (R62). -/
theorem fetch_ofBytes {artifact : List Byte} {i : Nat} {b0 b1 b2 b3 : Byte} (h0 : artifact[4 * i]? = some b0)
    (h1 : artifact[4 * i + 1]? = some b1) (h2 : artifact[4 * i + 2]? = some b2)
    (h3 : artifact[4 * i + 3]? = some b3) :
    (ProgramImage.ofBytes artifact).fetch i = some (wordOfBytes b0 b1 b2 b3) := by
  obtain ⟨hlast, -⟩ := List.getElem?_eq_some_iff.1 h3
  have hlt : i < (ProgramImage.ofBytes artifact).length := by
    change i < artifact.length / 4
    omega
  rw [fetch_of_lt hlt, cellsRead_artifact h0, cellsRead_artifact h1, cellsRead_artifact h2, cellsRead_artifact h3]
  rfl

/-- Settles O11: the image counts whole words and each is its four bytes. -/
theorem loadBuildsBigEndianWords : Obligations.LoadBuildsBigEndianWords := by
  intro p artifact h
  rw [construct_of_dvd p h]
  exact ⟨rfl, fun i b0 b1 b2 b3 h0 h1 h2 h3 => ⟨_, fetch_ofBytes h0 h1 h2 h3, toNat_wordOfBytes b0 b1 b2 b3⟩⟩

/-- The bytes of a list of words, four a word (R110). -/
theorem getElem?_flatMap_wordBytes (ws : List Word) (k j : Nat) (hj : j < 4) :
    (ws.flatMap wordBytes)[4 * k + j]? = ws[k]?.bind fun w => (wordBytes w)[j]? := by
  induction ws generalizing k with
  | nil => simp
  | cons w ws ih =>
    have hlen : (wordBytes w).length = 4 := rfl
    rw [List.flatMap_cons]
    cases k with
    | zero =>
      rw [List.getElem?_append_left (by omega)]
      simp
    | succ k =>
      rw [List.getElem?_append_right (by omega), hlen, show 4 * (k + 1) + j - 4 = 4 * k + j by omega, ih,
        List.getElem?_cons_succ]

/-- The bytes of a list of words are four for each (R110). -/
theorem length_flatMap_wordBytes (ws : List Word) : (ws.flatMap wordBytes).length = 4 * ws.length := by
  simp [List.length_flatMap, wordBytes, Nat.mul_comm]

/-- The words of an artifact come back from its bytes (R62, R110). -/
theorem fetch_flatMap_wordBytes (ws : List Word) (k : Nat) :
    (ProgramImage.ofBytes (ws.flatMap wordBytes)).fetch k = ws[k]? := by
  cases h : ws[k]? with
  | none =>
    refine fetch_of_length_le ?_
    change (ws.flatMap wordBytes).length / 4 ≤ k
    rw [length_flatMap_wordBytes, Nat.mul_div_cancel_left _ (by decide)]
    exact List.getElem?_eq_none_iff.1 h
  | some w =>
    have hbyte (j : Nat) (hj : j < 4) : (ws.flatMap wordBytes)[4 * k + j]? = (wordBytes w)[j]? := by
      rw [getElem?_flatMap_wordBytes ws k j hj, h, Option.bind_some]
    rw [fetch_ofBytes (hbyte 0 (by decide)) (hbyte 1 (by decide)) (hbyte 2 (by decide)) (hbyte 3 (by decide)),
      wordOfBytes_bytes]

end Machine

end Sys2Proof
end

section
/-! PROOFS. The encoding pass of the assembler (30_encoding.md R103 to R109): what each form of a line gives, that every
form gives the word of an instruction, and that the short forms are full forms. -/

namespace Sys2Proof.Asm

/-! ## Tokens -/

/-- The only error of a register position (R104). -/
theorem registerToken_of_none {tok : Chars} (h : register? tok = none) :
    registerToken tok = .error .unknownRegister := by
  simp only [registerToken, h]

/-- A register name in a register position (R104). -/
theorem registerToken_of_some {tok : Chars} {r : RegIdx} (h : register? tok = some r) : registerToken tok = .ok r := by
  simp only [registerToken, h]

/-- A register name begins with `$` (R104). -/
theorem isRegisterRef_of_register? {tok : Chars} {r : RegIdx} (h : register? tok = some r) :
    isRegisterRef tok = true := by
  unfold register? at h
  split at h
  · rfl
  · cases h

/-- The byte of an accepted operand token is not 0x80: every literal goes through `smenc` (R105). -/
theorem operandByte_ok_ne {tok : Chars} {b : Byte} (h : operandByte tok = .ok b) : b ≠ 0x80#8 := by
  unfold operandByte at h
  split at h
  · cases h
  · split at h
    · cases h
    · cases h
      exact (smag_of_smenc (by assumption)).1

/-- The decimal of a number up to 127 is the operand byte of that number (R88, R105). -/
theorem operandByte_decimal {k : Nat} (h : k ≤ 127) : operandByte (Nat.toDigits 10 k) = .ok (BitVec.ofNat 8 k) := by
  obtain ⟨b, hb, htoNat⟩ := smenc_of_nonneg (v := (k : Int)) (by omega) (by omega)
  obtain rfl : b = BitVec.ofNat 8 k := BitVec.eq_of_toNat_eq (by simp; omega)
  exact operandByte_of_some (literal?_decimal k) hb

/-- The decimal of a number above 127 is out of range (R88, R105). -/
theorem operandByte_decimal_of_gt {k : Nat} (h : 127 < k) :
    operandByte (Nat.toDigits 10 k) = .error .operandOutOfRange :=
  operandByte_of_none (literal?_decimal k) (smenc_eq_none (by omega))

/-- The tokens the spec fills in for a short form. -/
theorem registerToken_zero : registerToken "$0".toList = .ok 0 := by decide

theorem typeToken_zero : typeToken "0".toList = .ok 0 := by decide

theorem typeToken_one : typeToken "1".toList = .ok 1 := by decide

theorem typeToken_two : typeToken "2".toList = .ok 2 := by decide

theorem operandByte_zero : operandByte "0".toList = .ok 0 := by decide

/-! ## Forms -/

section
variable {m : Chars} {op : BitVec 4} (hm : mnemonics.lookup m = some op)
include hm

/-- A line of two tokens (R106, R108). -/
theorem encodeTokens_two (a : Chars) : encodeTokens [m, a] = encodeTwo op a := by
  simp only [encodeTokens, hm]

/-- A line of three tokens (R107). -/
theorem encodeTokens_three (a b : Chars) : encodeTokens [m, a, b] = encodeThree op a b := by
  simp only [encodeTokens, hm]

/-- A line of four tokens (R109). -/
theorem encodeTokens_full (a t n : Chars) : encodeTokens [m, a, t, n] = do
    let r ← registerToken a
    let ty ← typeToken t
    let b ← operandByte n
    return encodeFields ⟨op, r, ty, b⟩ := by
  simp only [encodeTokens, encodeFull, hm]

/-- A line of four tokens with register `$0` and type `0`. -/
theorem encodeTokens_full_zero (n : Chars) : encodeTokens [m, "$0".toList, "0".toList, n] = do
    let b ← operandByte n
    return encodeFields ⟨op, 0, 0, b⟩ := by
  rw [encodeTokens_full hm, registerToken_zero, typeToken_zero]
  rfl

/-- A branch line (R106). -/
theorem encodeTokens_branch (hop : isBranch op = true) (a : Chars) : encodeTokens [m, a] = do
    let b ← operandByte a
    return encodeFields ⟨op, 0, 0, b⟩ := by
  rw [encodeTokens_two hm, encodeTwo, if_pos hop]

end

/-- The mnemonics of the three-token forms: neither a branch nor PRT (R107). -/
theorem encodeThree_eq {op : BitVec 4} (hop : (isBranch op || op == 0) = false) (a b : Chars) :
    encodeThree op a b = do
      let r ← registerToken a
      if isRegisterRef b then do
        let s ← registerToken b
        return encodeFields ⟨op, r, 1, s.setWidth 8⟩
      else do
        let n ← operandByte b
        return encodeFields ⟨op, r, 0, n⟩ := by
  rw [encodeThree, if_neg (by rw [hop]; decide)]

/-! ## Every accepted line is an instruction -/

/-- The word is that of fields whose opcode is used and whose operand byte is not 0x80. -/
def IsInstructionWord (w : Word) : Prop := ∃ f : Fields, w = encodeFields f ∧ f.op.toNat ≤ 10 ∧ f.opnd ≠ 0x80#8

/-- Such a word decodes to an instruction with that operand byte (R90). -/
theorem IsInstructionWord.decodes {w : Word} (h : IsInstructionWord w) :
    ∃ i, decodeWord w = .ok i ∧ i.toFields.opnd ≠ 0x80#8 := by
  obtain ⟨f, rfl, hop, hopnd⟩ := h
  cases hi : instrOfFields f with
  | none => exact absurd ((instrOfFields_eq_none_iff f).1 hi) (Nat.not_lt.2 hop)
  | some i =>
    refine ⟨i, (decodeWord_ok_iff_fields _ _).2 ⟨hiOk_encodeFields f, by rw [decodeFields_encodeFields, hi]⟩, ?_⟩
    rw [toFields_of_instrOfFields hi]
    exact hopnd

/-- Every mnemonic has a used opcode (R90). -/
theorem op_le_of_lookup {m : Chars} {op : BitVec 4} (h : mnemonics.lookup m = some op) : op.toNat ≤ 10 := by
  have hused : ∀ p ∈ mnemonics, p.2.toNat ≤ 10 := by decide
  obtain ⟨before, after, heq, -⟩ := List.lookup_eq_some_iff.1 h
  exact hused (m, op) (by simp [heq])

/-- A fill of the operand field ends in an instruction. -/
theorem isInstructionWord_of_operandByte {op : BitVec 4} {r : RegIdx} {t : TypeTag} {tok : Chars} {w : Word}
    (hop : op.toNat ≤ 10) (h : (do let b ← operandByte tok; return encodeFields ⟨op, r, t, b⟩) = .ok w) :
    IsInstructionWord w := by
  obtain ⟨b, hb, hw⟩ := bind_ok h
  cases hw
  exact ⟨_, rfl, hop, operandByte_ok_ne hb⟩

/-- The two-token forms. -/
theorem encodeTwo_ok {op : BitVec 4} {a : Chars} {w : Word} (hop : op.toNat ≤ 10) (h : encodeTwo op a = .ok w) :
    IsInstructionWord w := by
  unfold encodeTwo at h
  split at h
  · exact isInstructionWord_of_operandByte hop h
  · split at h
    · split at h
      · obtain ⟨r, -, hw⟩ := bind_ok h
        cases hw
        exact ⟨_, rfl, hop, (by decide : (0 : Byte) ≠ 0x80#8)⟩
      · exact isInstructionWord_of_operandByte hop h
    · cases h

/-- A register index is no 0x80. -/
theorem setWidth_register_ne (s : RegIdx) : s.setWidth 8 ≠ 0x80#8 := by
  have hs := s.isLt
  rw [ne_eq, ← BitVec.toNat_inj, BitVec.toNat_setWidth_of_le (by decide), BitVec.toNat_ofNat]
  omega

/-- The three-token form. -/
theorem encodeThree_ok {op : BitVec 4} {a b : Chars} {w : Word} (hop : op.toNat ≤ 10)
    (h : encodeThree op a b = .ok w) : IsInstructionWord w := by
  cases hthree : (isBranch op || op == 0) with
  | true =>
    rw [encodeThree, if_pos hthree] at h
    cases h
  | false =>
    rw [encodeThree_eq hthree] at h
    obtain ⟨r, -, h⟩ := bind_ok h
    split at h
    · obtain ⟨s, -, hw⟩ := bind_ok h
      cases hw
      exact ⟨_, rfl, hop, setWidth_register_ne s⟩
    · exact isInstructionWord_of_operandByte hop h

/-- The full form. -/
theorem encodeFull_ok {m a t n : Chars} {w : Word} (h : encodeFull m a t n = .ok w) : IsInstructionWord w := by
  unfold encodeFull at h
  split at h
  · cases h
  · obtain ⟨r, -, h⟩ := bind_ok h
    obtain ⟨ty, -, h⟩ := bind_ok h
    exact isInstructionWord_of_operandByte (op_le_of_lookup (by assumption)) h

/-- Every accepted line is an instruction. -/
theorem encodeTokens_ok {toks : List Chars} {w : Word} (h : encodeTokens toks = .ok w) : IsInstructionWord w := by
  unfold encodeTokens at h
  split at h
  · split at h
    · exact encodeTwo_ok (op_le_of_lookup (by assumption)) h
    · cases h
  · split at h
    · exact encodeThree_ok (op_le_of_lookup (by assumption)) h
    · cases h
  · exact encodeFull_ok h
  · cases h

/-- Every word of an accepted text is an instruction. -/
theorem isInstructionWord_of_assembleWords {lines : List Chars} {ws : List Word} {k : Nat} {w : Word}
    (h : assembleWords lines = .ok ws) (hk : ws[k]? = some w) : IsInstructionWord w := by
  obtain ⟨table, -, hlen, hlines⟩ := assembleWords_ok h
  obtain ⟨hlt, -⟩ := List.getElem?_eq_some_iff.1 hk
  obtain ⟨r, w', -, hw', hk'⟩ := hlines k _ (List.getElem?_eq_getElem (hlen ▸ hlt))
  rw [hk] at hk'
  cases hk'
  exact encodeTokens_ok hw'

/-- Settles O53: the artifact is the words' bytes, and each word is an instruction. -/
theorem assembledWordsAreInstructions : Obligations.AssembledWordsAreInstructions := by
  intro lines artifact h
  obtain ⟨ws, hws, hartifact⟩ := bind_ok h
  cases hartifact
  refine ⟨by rw [Machine.length_flatMap_wordBytes]; omega, fun k w hk => ?_⟩
  rw [Machine.fetch_flatMap_wordBytes] at hk
  exact (isInstructionWord_of_assembleWords hws hk).decodes

/-! ## Short forms -/

theorem lookup_jmp : mnemonics.lookup "JMP".toList = some 6 := by decide

theorem lookup_jnp : mnemonics.lookup "JNP".toList = some 7 := by decide

theorem lookup_prt : mnemonics.lookup "PRT".toList = some 0 := by decide

/-- The mnemonics with a three-token form (R107). -/
theorem exists_lookup_three : ∀ m ∈ ["SET".toList, "ADD".toList, "SUB".toList, "MUL".toList, "DIV".toList,
    "EQL".toList, "CBP".toList, "CLP".toList],
    ∃ op, mnemonics.lookup m = some op ∧ (isBranch op || op == 0) = false := by decide

/-- The index of a register as an operand byte (R47, R107). -/
theorem setWidth_register (s : RegIdx) : s.setWidth 8 = BitVec.ofNat 8 s.toNat := by
  refine BitVec.eq_of_toNat_eq ?_
  rw [BitVec.toNat_setWidth, BitVec.toNat_ofNat]

/-- The operand of a register-indirect short form is the decimal of the index (R107). -/
theorem operandByte_registerIndex (s : RegIdx) : operandByte (Nat.toDigits 10 s.toNat) = .ok (s.setWidth 8) := by
  have hs := s.isLt
  rw [operandByte_decimal (by omega), setWidth_register]

section
variable {m : Chars} {op : BitVec 4} (hm : mnemonics.lookup m = some op)
include hm

/-- `JMP t` and `JNP t` have register `$0` and type `0` (R106). -/
theorem encodeTokens_branch_eq_full (hop : isBranch op = true) (t : Chars) :
    encodeTokens [m, t] = encodeTokens [m, "$0".toList, "0".toList, t] := by
  rw [encodeTokens_branch hm hop, encodeTokens_full_zero hm]

variable (hop : (isBranch op || op == 0) = false)
include hop

/-- `OP $r N` has type `0` (R107). -/
theorem encodeTokens_literal_eq_full {t : Chars} (ht : isRegisterRef t = false) (r : Chars) :
    encodeTokens [m, r, t] = encodeTokens [m, r, "0".toList, t] := by
  rw [encodeTokens_three hm, encodeThree_eq hop, encodeTokens_full hm, typeToken_zero, ht]
  rfl

/-- `OP $r $s` has type `1` and the index of `$s` (R107). -/
theorem encodeTokens_register {t : Chars} {si : RegIdx} (ht : register? t = some si) (r : Chars) :
    encodeTokens [m, r, t] = do
      let ri ← registerToken r
      return encodeFields ⟨op, ri, 1, si.setWidth 8⟩ := by
  rw [encodeTokens_three hm, encodeThree_eq hop, isRegisterRef_of_register? ht, registerToken_of_some ht]
  rfl

/-- `OP $r $s` is the full form with type `1` and the decimal index of `$s` (R107). -/
theorem encodeTokens_register_eq_full {t : Chars} {si : RegIdx} (ht : register? t = some si) (r : Chars) :
    encodeTokens [m, r, t] = encodeTokens [m, r, "1".toList, Nat.toDigits 10 si.toNat] := by
  rw [encodeTokens_register hm hop ht, encodeTokens_full hm, typeToken_one, operandByte_registerIndex]
  rfl

/-- A first operand that is no register name (R104). -/
theorem encodeTokens_first_unknown {r : Chars} (hr : register? r = none) (t : Chars) :
    encodeTokens [m, r, t] = .error .unknownRegister := by
  rw [encodeTokens_three hm, encodeThree_eq hop, registerToken_of_none hr]
  rfl

/-- A `$`-token that is no register name (R104). -/
theorem encodeTokens_second_unknown {t : Chars} (ht : isRegisterRef t = true) (hnone : register? t = none)
    (r : Chars) : encodeTokens [m, r, t] = .error .unknownRegister := by
  cases hr : register? r with
  | none => exact encodeTokens_first_unknown hm hop hr t
  | some ri =>
    rw [encodeTokens_three hm, encodeThree_eq hop, registerToken_of_some hr, registerToken_of_none hnone, ht]
    rfl

end

/-- `PRT N` has register `$0` and type `0` (R108). -/
theorem encodeTokens_prt_literal {t : Chars} (ht : isRegisterRef t = false) :
    encodeTokens ["PRT".toList, t] = encodeTokens ["PRT".toList, "$0".toList, "0".toList, t] := by
  rw [encodeTokens_two lookup_prt, encodeTokens_full_zero lookup_prt, encodeTwo, ht]
  rfl

/-- `PRT $x` has type `2` and operand `0` (R108). -/
theorem encodeTokens_prt_register {t : Chars} (ht : isRegisterRef t = true) :
    encodeTokens ["PRT".toList, t] = encodeTokens ["PRT".toList, t, "2".toList, "0".toList] := by
  rw [encodeTokens_two lookup_prt, encodeTokens_full lookup_prt, typeToken_two, operandByte_zero, encodeTwo, ht]
  rfl

/-- Settles O54: the branches, the two forms of PRT and the two of the other eight mnemonics, with their errors. -/
theorem shortFormsAreFullForms : Obligations.ShortFormsAreFullForms := by
  refine ⟨fun t => ⟨encodeTokens_branch_eq_full lookup_jmp rfl t, encodeTokens_branch_eq_full lookup_jnp rfl t⟩,
    fun t ht => encodeTokens_prt_literal ht, fun t ht => encodeTokens_prt_register ht, fun m hmem r t => ?_⟩
  obtain ⟨op, hm, hop⟩ := exists_lookup_three m hmem
  refine ⟨fun ht => encodeTokens_literal_eq_full hm hop ht r, fun si ht => encodeTokens_register_eq_full hm hop ht r,
    fun ri si op' hr ht hm' => ?_, fun ht hnone => encodeTokens_second_unknown hm hop ht hnone r,
    fun hr => encodeTokens_first_unknown hm hop hr t⟩
  rw [hm] at hm'
  cases hm'
  rw [encodeTokens_register hm hop ht, registerToken_of_some hr, setWidth_register]
  rfl

end Sys2Proof.Asm
end

section
/-! PROOFS. The label offset contract (43_branch.md section 3): the count behind a label, the decimal that replaces a
reference to it, and the operand byte and landing of that decimal. -/

namespace Sys2Proof.Asm

/-- `k + 1` is the operand byte that lands at `k`, or at 1 for `k = 0` (R201, R204). -/
theorem landing_succ (k : Nat) : Machine.landing (k + 1) = max k 1 := by
  rw [Machine.landing_eq]
  omega

/-- The byte of `k + 1` for a `k` within the literal range. -/
theorem toNat_offset {k : Nat} (h : k ≤ 126) : (BitVec.ofNat 8 (k + 1)).toNat = k + 1 := by
  rw [BitVec.toNat_ofNat, Nat.mod_eq_of_lt (by omega)]

/-- Text without spaces after a word and a space are two tokens (R103). -/
theorem splitSpaces_word_space {m t : Chars} (hm : ' ' ∉ m) (ht : ' ' ∉ t) : splitSpaces (m ++ ' ' :: t) = [m, t] := by
  induction m with
  | nil => simp [splitSpaces, splitSpaces_plain t ht]
  | cons c cs ih =>
    have hc : c ≠ ' ' := by rintro rfl; simp at hm
    simp [splitSpaces, ih fun hmem => hm (by simp [hmem]), hc]

/-- A decimal holds no space. -/
theorem space_not_mem_decimal (n : Nat) : ' ' ∉ Nat.toDigits 10 n := fun h =>
  absurd (isDigit_of_mem_decimal h) (by decide)

section
variable {m : Chars} {op : BitVec 4} (hm : mnemonics.lookup m = some op) (hop : isBranch op = true)
include hm hop

/-- A branch line with the decimal `k + 1` is the short form with that operand byte, up to 126 (R106). -/
theorem encodeTokens_branch_decimal {k : Nat} (hk : k ≤ 126) :
    encodeTokens [m, Nat.toDigits 10 (k + 1)] = .ok (encodeFields ⟨op, 0, 0, BitVec.ofNat 8 (k + 1)⟩) := by
  rw [encodeTokens_branch hm hop, operandByte_decimal (by omega)]
  rfl

/-- From 127 on the decimal `k + 1` is out of range (R88, R105). -/
theorem encodeTokens_branch_decimal_of_ge {k : Nat} (hk : 127 ≤ k) :
    encodeTokens [m, Nat.toDigits 10 (k + 1)] = .error .operandOutOfRange := by
  rw [encodeTokens_branch hm hop, operandByte_decimal_of_gt (by omega)]
  rfl

/-- A branch line that names a label is, in an accepted text, the short form with the label's count plus one. -/
theorem branch_word_of_reference {table : LabelTable} {name r : Chars} {k : Nat} {w : Word} (hspace : ' ' ∉ m)
    (hhash : '#' ∉ m) (hname : name ≠ [] ∧ name.all isWordChar = true) (hk : table.lookup name = some k)
    (hr : substitute table (m ++ ' ' :: '#' :: name) none = .ok r) (hw : encodeTokens (splitSpaces r) = .ok w) :
    k ≤ 126 ∧ w = encodeFields ⟨op, 0, 0, BitVec.ofNat 8 (k + 1)⟩ := by
  have hpre : '#' ∉ m ++ [' '] := by simp [hhash]
  have hsub : substitute table (m ++ ' ' :: '#' :: name) none = .ok (m ++ ' ' :: Nat.toDigits 10 (k + 1)) := by
    have h := substitute_reference table (suf := []) hpre hname.2 nofun
    rw [flushRef_known hname.1 hk] at h
    simpa [substitute, Except.bind, Except.map] using h
  rw [hsub] at hr
  cases hr
  rw [splitSpaces_word_space hspace (space_not_mem_decimal _)] at hw
  rcases Nat.lt_or_ge 126 k with hgt | hle
  · rw [encodeTokens_branch_decimal_of_ge hm hop hgt] at hw
    cases hw
  · rw [encodeTokens_branch_decimal hm hop hle] at hw
    cases hw
    exact ⟨hle, rfl⟩

/-- End to end: in an accepted text, the word of a retained branch line that names a label. -/
theorem assembled_branch {before after : List Chars} {name : Chars} {ws : List Word} {j : Nat} (hspace : ' ' ∉ m)
    (hhash : '#' ∉ m) (h : assembleWords (before ++ ('#' :: name) :: after) = .ok ws)
    (hj : (retained before ++ retained after)[j]? = some (m ++ ' ' :: '#' :: name)) :
    (retained before).length ≤ 126 ∧
      ws[j]? = some (encodeFields ⟨op, 0, 0, BitVec.ofNat 8 ((retained before).length + 1)⟩) := by
  obtain ⟨table, hcollect, -, hlines⟩ := assembleWords_ok h
  obtain ⟨hname, hlookup⟩ := collect_label hcollect
  rw [Nat.zero_add] at hlookup
  obtain ⟨r, w, hr, hw, hws⟩ := hlines j _ (by rw [retained_label, hj])
  obtain ⟨hle, rfl⟩ := branch_word_of_reference hm hop hspace hhash hname hlookup hr hw
  exact ⟨hle, hws⟩

end

/-- Settles O52: the laws of the passes give the first two clauses; a branch line's word and the decimal's range give
the others. -/
theorem labelOffsetContract : Obligations.LabelOffsetContract := by
  refine ⟨fun table pre name suf hpre hne hword hsuf => ⟨fun k hk => ?_, fun hnone => ?_⟩,
    fun before after name table kept h => ?_, fun before after name ws j h => ⟨fun hj => ?_, fun hj => ?_⟩,
    fun k hk => ⟨BitVec.ofNat 8 (k + 1), encodeTokens_branch_decimal lookup_jmp rfl hk,
      encodeTokens_branch_decimal lookup_jnp rfl hk, toNat_offset hk, by rw [toNat_offset hk, landing_succ]⟩,
    fun k hk => ⟨encodeTokens_branch_decimal_of_ge lookup_jmp rfl hk,
      encodeTokens_branch_decimal_of_ge lookup_jnp rfl hk⟩⟩
  · rw [substitute_reference table hpre hword hsuf, flushRef_known hne hk]
    rfl
  · rw [substitute_reference table hpre hword hsuf, flushRef_unknown hne hnone]
    rfl
  · obtain ⟨-, hlookup⟩ := collect_label h
    exact ⟨by rw [hlookup, Nat.zero_add], (collect_kept h).trans (retained_label before after name)⟩
  · obtain ⟨hle, hws⟩ := assembled_branch lookup_jmp rfl (by decide) (by decide) h hj
    exact ⟨hle, _, hws, toNat_offset hle, by rw [toNat_offset hle, landing_succ]⟩
  · obtain ⟨hle, hws⟩ := assembled_branch lookup_jnp rfl (by decide) (by decide) h hj
    exact ⟨hle, _, hws, toNat_offset hle, by rw [toNat_offset hle, landing_succ]⟩

end Sys2Proof.Asm
end
